-- ==== Sys2Proof/Word.lean ====
section
/-! DEFINITION. The word types of the block: a signal, a bus of a fixed width, and the number that names an instance
or a net of a host system. Position 0 of a bus is its most significant bit (R7); the views of a bus are in
Machine/Buses.lean. -/

namespace Sys2Proof

/-- A signal: exactly two states, 0 (`false`) and 1 (`true`) (R9, decision D2). -/
abbrev Signal := Bool

/-- A bus of `w` signals. Its position `i` is the bit of weight `2^(w-1-i)` (R7, R8). -/
abbrev Bus (w : Nat) := BitVec w

/-- The block's word: a bus of 16 signals (R5). -/
abbrev Bus16 := Bus 16

/-- A bus as the host hands it over before any check: its signals in order, position 0 first, each a natural number
that should be 0 or 1, of any length (the untyped boundary of R202). -/
abbrev RawBus := List Nat

/-- The name of an instance, a net or an input of a system: the script's NAME (R75), as a number. The block gives
its registers no name, alias or number (R25), so the numbers are the model's (log entry 2). -/
abbrev Ident := Nat

end Sys2Proof
end

