-- ==== Sys2Proof/Machine/Buses.lean ====
section
/-! DEFINITION. The views of a bus (R7, R8, R12): its positions, its unsigned and two's-complement values, building it
position by position, sub-buses and extensions, and its form as an ordered sequence of signals (R44). -/

namespace Sys2Proof

/-- `b[i]`: position i of the bus, position 0 the most significant (R7, R12). -/
def Bus.pos {w : Nat} (b : Bus w) (i : Nat) : Signal := BitVec.getMsbD b i

/-- The bus whose position i is `f i` (R7). -/
def Bus.build : (w : Nat) → (Nat → Signal) → Bus w
  | 0, _ => 0#0
  | w + 1, f => BitVec.cons (f 0) (Bus.build w fun i => f (i + 1))

/-- `u(b)`: the unsigned value of a bus (R8). -/
def Bus.u {w : Nat} (b : Bus w) : Nat := BitVec.toNat b

/-- `s(b)`: the two's-complement value of a bus (R8). -/
def Bus.s {w : Nat} (b : Bus w) : Int := (Bus.u b : Int) - (if Bus.pos b 0 then 2 ^ w else 0)

/-- `bus_w(n)` for a natural number n (R8). -/
def Bus.ofNum (w n : Nat) : Bus w := BitVec.ofNat w n

/-- `bus_w(n)` for any integer n (R8). -/
def Bus.ofInteger (w : Nat) (n : Int) : Bus w := BitVec.ofInt w n

/-- `rep_w(x)`: every position equal to x (R12). -/
def Bus.rep (w : Nat) (x : Signal) : Bus w := Bus.build w fun _ => x

/-- `b[p..q]`: positions p through q, kept MSB-first (R12). -/
def Bus.slice {w : Nat} (b : Bus w) (p q : Nat) : Bus (q - p + 1) := Bus.build (q - p + 1) fun i => Bus.pos b (p + i)

/-- `zext_N(b)`: zeros added at the most-significant end (R12). -/
def Bus.zext {w : Nat} (n : Nat) (b : Bus w) : Bus n := Bus.ofNum n (Bus.u b)

/-- `sext_N(b)`: copies of position 0 added at the most-significant end (R12). -/
def Bus.sext {w : Nat} (n : Nat) (b : Bus w) : Bus n := Bus.ofInteger n (Bus.s b)

/-- The bus as an ordered sequence of signals, position 0 first: the form in which the block exchanges it (R44). -/
def Bus.signals {w : Nat} (b : Bus w) : List Signal := (List.range w).map (Bus.pos b)

/-- A signal as the host writes it. -/
def Signal.raw (x : Signal) : Nat := if x then 1 else 0

/-- A sequence of signals as the host writes it. -/
def rawOf (xs : List Signal) : RawBus := xs.map Signal.raw

/-- A bus as the host writes it. -/
def Bus.raw {w : Nat} (b : Bus w) : RawBus := rawOf (Bus.signals b)

/-- The number an ordered sequence of signals denotes: `u` of R8, taken before any check. -/
def RawBus.value (r : RawBus) : Nat := r.foldl (fun acc x => 2 * acc + x) 0

/-- Every signal of the sequence is 0 or 1 (R9). -/
def RawBus.valid (r : RawBus) : Bool := r.all fun x => decide (x < 2)

/-- The signals of a sequence, if each is 0 or 1. -/
def RawBus.signals? (r : RawBus) : Option (List Signal) :=
  if RawBus.valid r then some (r.map fun x => x == 1) else none

end Sys2Proof
end

