-- ==== Sys2Proof/Machine/Gates.lean ====
section
/-! DEFINITION. The combinational gate library as the source builds it: NAND is the sole axiom, and every other gate is
defined from NAND and gates defined before it (R10), by the reference compositions of R101 to R115. -/

namespace Sys2Proof.Machine

/-- R100: the primitive gate, 0 only when both inputs are 1. -/
def nandGate (a b : Signal) : Signal :=
  match a, b with
  | true, true => false
  | true, false | false, true | false, false => true

/-- R101. -/
def notGate (a : Signal) : Signal := nandGate a a

/-- R102. -/
def andGate (a b : Signal) : Signal := notGate (nandGate a b)

/-- R103. -/
def orGate (a b : Signal) : Signal := nandGate (notGate a) (notGate b)

/-- R104. -/
def xorGate (a b : Signal) : Signal := andGate (orGate a b) (nandGate a b)

/-- R105: `a` for sel = 0, `b` for sel = 1. -/
def muxGate (a b sel : Signal) : Signal := orGate (andGate a (notGate sel)) (andGate b sel)

/-- R106, decision D4: the outputs a and b; the input goes to a for sel = 0, to b for sel = 1, the other is 0. -/
def dmuxGate (inp sel : Signal) : Signal × Signal := (andGate inp (notGate sel), andGate inp sel)

/-- R107. -/
def not16Gate (a : Bus16) : Bus16 := Bus.build 16 fun i => notGate (Bus.pos a i)

/-- R108. -/
def and16Gate (a b : Bus16) : Bus16 := Bus.build 16 fun i => andGate (Bus.pos a i) (Bus.pos b i)

/-- R109. -/
def or16Gate (a b : Bus16) : Bus16 := Bus.build 16 fun i => orGate (Bus.pos a i) (Bus.pos b i)

/-- R110: one selector broadcast to all 16 positions. -/
def mux16Gate (a b : Bus16) (sel : Signal) : Bus16 := Bus.build 16 fun i => muxGate (Bus.pos a i) (Bus.pos b i) sel

/-- R111: a tree of seven ORs. -/
def or8wayGate (inp : Bus 8) : Signal :=
  orGate
    (orGate (orGate (Bus.pos inp 0) (Bus.pos inp 1)) (orGate (Bus.pos inp 2) (Bus.pos inp 3)))
    (orGate (orGate (Bus.pos inp 4) (Bus.pos inp 5)) (orGate (Bus.pos inp 6) (Bus.pos inp 7)))

/-- R112, R116: pairs on the least significant selector position first. -/
def mux4way16Gate (in0 in1 in2 in3 : Bus16) (sel : Bus 2) : Bus16 :=
  mux16Gate (mux16Gate in0 in1 (Bus.pos sel 1)) (mux16Gate in2 in3 (Bus.pos sel 1)) (Bus.pos sel 0)

/-- R113, R116: pairs on position 2, then on position 1, then on position 0. -/
def mux8way16Gate (in0 in1 in2 in3 in4 in5 in6 in7 : Bus16) (sel : Bus 3) : Bus16 :=
  mux16Gate
    (mux16Gate (mux16Gate in0 in1 (Bus.pos sel 2)) (mux16Gate in2 in3 (Bus.pos sel 2)) (Bus.pos sel 1))
    (mux16Gate (mux16Gate in4 in5 (Bus.pos sel 2)) (mux16Gate in6 in7 (Bus.pos sel 2)) (Bus.pos sel 1))
    (Bus.pos sel 0)

/-- R114: the four outputs as a bus whose position j is out_j. -/
def dmux4wayGate (inp : Signal) (sel : Bus 2) : Bus 4 :=
  let (x, y) := dmuxGate inp (Bus.pos sel 0)
  let (out0, out1) := dmuxGate x (Bus.pos sel 1)
  let (out2, out3) := dmuxGate y (Bus.pos sel 1)
  Bus.build 4 fun j => [out0, out1, out2, out3].getD j false

/-- R115: the eight outputs as a bus whose position j is out_j. -/
def dmux8wayGate (inp : Signal) (sel : Bus 3) : Bus 8 :=
  let (x, y) := dmuxGate inp (Bus.pos sel 0)
  let low := Bus.build 2 fun i => Bus.pos sel (i + 1)
  let lower := dmux4wayGate x low
  let upper := dmux4wayGate y low
  Bus.build 8 fun j => if j < 4 then Bus.pos lower j else Bus.pos upper (j - 4)

end Sys2Proof.Machine
end

