-- ==== Sys2Proof/Machine/Flags.lean ====
section
/-! DEFINITION. The block's only flags (R28): the ALU's zero and negative flags, computed from its already-computed
output and nothing else (R135). They are outputs of the cycle, never stored. -/

namespace Sys2Proof.Machine

/-- R135: two 8-way OR reductions over the halves of the output, a final OR and a NOT. -/
def zeroFlag (out : Bus16) : Signal :=
  notGate (orGate (or8wayGate (Bus.slice out 0 7)) (or8wayGate (Bus.slice out 8 15)))

/-- R135: the output's position 0. -/
def negativeFlag (out : Bus16) : Signal := Bus.pos out 0

end Sys2Proof.Machine
end

