-- ==== Sys2Proof/Syntax.lean ====
section
/-! DEFINITION. The syntax of the block: its components and ports, the component operations (one constructor of
`Instr` per row of spec/opcode_table.json), an operation as the host hands it over, the errors of the boundary, and the
host wirings and cycle scripts of R75. -/

namespace Sys2Proof

/-- The port names of R61. The source's port `in` is spelled `inp` here, as the program counter's already is. -/
inductive Port
  | a | b | c | sel | inp
  | in0 | in1 | in2 | in3 | in4 | in5 | in6 | in7
  | x | y | zx | nx | zy | ny | f | no
  | address | load | increment | reset
  | out | out0 | out1 | out2 | out3 | out4 | out5 | out6 | out7
  | sum | carry | zr | ng
deriving DecidableEq, Repr

/-- The components of the block (R3, R70). The program counter is one component; R70 gives it four operations. -/
inductive Comp
  | nand | not | and | or | xor | mux | dmux
  | not16 | and16 | or16 | mux16 | or8way | mux4way16 | mux8way16 | dmux4way | dmux8way
  | halfadd | fulladd | add16 | inc16 | alu
  | latch | bit | register | ram8 | ram64 | ram512 | ram4k | ram16k | pc
deriving DecidableEq, Repr

/-- The five memory blocks (R5, R40). -/
inductive RamSize
  | ram8 | ram64 | ram512 | ram4k | ram16k
deriving DecidableEq, Repr

/-- The component operations of R70, one constructor per row of spec/opcode_table.json. The arguments are the values
on the input ports in the order of R61, after the number of the instance for a stateful component. A program-counter
operation carries the control signals its row leaves free, because they are still inputs of the cycle (R191 to R194). -/
inductive Instr
  | nand (a b : Signal)
  | not (a : Signal)
  | and (a b : Signal)
  | or (a b : Signal)
  | xor (a b : Signal)
  | mux (a b sel : Signal)
  | dmux (inp sel : Signal)
  | not16 (a : Bus16)
  | and16 (a b : Bus16)
  | or16 (a b : Bus16)
  | mux16 (a b : Bus16) (sel : Signal)
  | or8way (inp : Bus 8)
  | mux4way16 (in0 in1 in2 in3 : Bus16) (sel : Bus 2)
  | mux8way16 (in0 in1 in2 in3 in4 in5 in6 in7 : Bus16) (sel : Bus 3)
  | dmux4way (inp : Signal) (sel : Bus 2)
  | dmux8way (inp : Signal) (sel : Bus 3)
  | halfadd (a b : Signal)
  | fulladd (a b c : Signal)
  | add16 (a b : Bus16)
  | inc16 (a : Bus16)
  | alu (x y : Bus16) (zx nx zy ny f no : Signal)
  | latch (n : Ident) (inp : Signal)
  | bit (n : Ident) (inp load : Signal)
  | register (n : Ident) (inp : Bus16) (load : Signal)
  | ram8 (n : Ident) (inp : Bus16) (address : Bus 3) (load : Signal)
  | ram64 (n : Ident) (inp : Bus16) (address : Bus 6) (load : Signal)
  | ram512 (n : Ident) (inp : Bus16) (address : Bus 9) (load : Signal)
  | ram4k (n : Ident) (inp : Bus16) (address : Bus 12) (load : Signal)
  | ram16k (n : Ident) (inp : Bus16) (address : Bus 14) (load : Signal)
  | pcReset (n : Ident) (inp : Bus16) (increment load : Signal)
  | pcLoad (n : Ident) (inp : Bus16) (increment : Signal)
  | pcInc (n : Ident) (inp : Bus16)
  | pcHold (n : Ident) (inp : Bus16)
deriving DecidableEq, Repr

/-- One component operation as the host hands it over: the component, the instance it steps (0 for a combinational
component, which has no instance), and the value on each input port in the order of R61. These port values are the
operation's encoding: the block has no instruction word (R60). -/
structure RawOp where
  comp : Comp
  inst : Ident
  ports : List RawBus
deriving DecidableEq, Repr

/-- The errors of the boundary (R200, R201), named as the spec names them; the payload is decision D7's. -/
inductive PortError
  /-- R200: a signal of this input port is neither 0 nor 1. -/
  | invalidSignalError (comp : Comp) (port : Port)
  /-- R201: this port's bus has `supplied` positions, and the port is `expected` wide. -/
  | widthMismatchError (comp : Comp) (port : Port) (expected supplied : Nat)
  /-- Not one of the source's two errors: the host did not supply every input (R222), or supplied more values than
  the component has input ports (log entry 6). -/
  | inputCountError (comp : Comp) (expected supplied : Nat)
deriving DecidableEq, Repr

/-- The labels of the 18 ALU control words that R71 names. -/
inductive AluLabel
  | zero | one | minusOne | x | y | notX | notY | negX | negY
  | incX | incY | decX | decY | addXY | subXY | subYX | andXY | orXY
deriving DecidableEq, Repr

mutual
/-- The expressions of R75: what a net stands for and what a `drive` line gives an instance's port. -/
inductive Expr
  /-- A LITERAL: its signals, position 0 first. -/
  | lit (value : List Signal)
  /-- NAME: an input of the script, or a net with one output. -/
  | name (n : Ident)
  /-- NAME.out of an instance, or NAME.OUTPORT of a net. -/
  | port (n : Ident) (p : Port)
  /-- OP(...): a combinational component applied to its inputs in the order of R61. -/
  | op (c : Comp) (args : Exprs)
  /-- ALU[LABEL](x, y): the result port of the ALU under the control word of R71. -/
  | alu (l : AluLabel) (x y : Expr)
  /-- e[p..q]: the sub-bus of positions p through q (R12). -/
  | slice (e : Expr) (p q : Nat)
deriving DecidableEq, Repr
/-- A list of expressions, as a type of its own because it is defined together with them. -/
inductive Exprs
  | nil
  | cons (e : Expr) (es : Exprs)
deriving DecidableEq, Repr
end

/-- `inst NAME : COMP`: a stateful instance of the system. -/
structure InstDecl where
  name : Ident
  comp : Comp
deriving DecidableEq, Repr

/-- `net NAME = expr`: a combinational value, recomputed every cycle. -/
structure NetDecl where
  name : Ident
  expr : Expr
deriving DecidableEq, Repr

/-- `drive NAME(port = expr, ...)`: the inputs the instance takes every cycle. -/
structure DriveDecl where
  name : Ident
  ports : List (Port × Expr)
deriving DecidableEq, Repr

/-- A host wiring: the declarations of a cycle script (R75). It is the open parameter `System` of decision D20. -/
structure System where
  insts : List InstDecl
  nets : List NetDecl
  drives : List DriveDecl
  inputs : List Ident
deriving DecidableEq, Repr

/-- `cycle t: NAME = LITERAL, ...`: the values of the script's inputs in one clock cycle. -/
structure Row where
  number : Nat
  values : List (Ident × RawBus)
deriving DecidableEq, Repr

/-- A cycle script (R75): declarations, then rows. -/
structure Script where
  system : System
  rows : List Row
deriving DecidableEq, Repr

/-- What a wiring or a row can have wrong; a model gives such a script no meaning (R75, R222, R223, R233). -/
inductive ScriptError
  /-- Two declarations share this name. -/
  | duplicateName (n : Ident)
  /-- An `inst` line names a component without state. -/
  | notStateful (n : Ident)
  /-- An expression names nothing that is declared. -/
  | undeclared (n : Ident)
  /-- The instance or net of this name has no such output. -/
  | noSuchPort (n : Ident) (p : Port)
  /-- An expression applies a component to the wrong number of inputs. -/
  | wrongArity (c : Comp)
  /-- An expression applies a stateful component as if it were a function. -/
  | statefulOperator (c : Comp)
  /-- A net or operator with several outputs stands where one value is needed. -/
  | severalOutputs
  /-- `e[p..q]` with p greater than q. -/
  | emptySlice (p q : Nat)
  /-- `e[p..q]` where e has at most q positions. -/
  | sliceOutOfRange (q width : Nat)
  /-- An instance has no `drive` line, or its line leaves this port out (R222). -/
  | undriven (n : Ident) (p : Port)
  /-- An instance's `drive` lines give this port twice, or the instance has no such input port. -/
  | badDrive (n : Ident) (p : Port)
  /-- A `drive` line names no instance. -/
  | driveOfNoInstance (n : Ident)
  /-- Two `drive` lines name the same instance. -/
  | drivenTwice (n : Ident)
  /-- A value depends on itself through no stateful instance (R233). -/
  | combinationalLoop
  /-- A row does not supply this declared input (R75). -/
  | inputMissing (n : Ident)
  /-- A row supplies this name, which is no declared input, or supplies it twice. -/
  | inputUnexpected (n : Ident)
deriving DecidableEq, Repr

/-- What the host asks of the machine next. -/
inductive HostInput
  /-- One evaluation of one component (R153; for a stateful one, one cycle of that instance only, R223). -/
  | operation (op : RawOp)
  /-- One clock cycle of the whole system, with the values of its inputs (R224). -/
  | cycle (row : Row)
  /-- Construct the instances of this system anew and take its wiring (R220, R222). -/
  | construct (sys : System)
deriving DecidableEq, Repr

end Sys2Proof
end

