-- ==== Sys2Proof/Config.lean ====
section
/-! DEFINITION. What a build of the block fixes: the address widths of the memory blocks (R5) and the one open
parameter of its errors, `errorPortOrder` (R205, decision D8). The other open parameter, `System` (decision D20), is data
of State. -/

namespace Sys2Proof

/-- The number of address bits k of a memory block (R5, R40). -/
def RamSize.addressWidth : RamSize → Nat
  | .ram8 => 3
  | .ram64 => 6
  | .ram512 => 9
  | .ram4k => 12
  | .ram16k => 14

/-- Decision D8's open parameter `errorPortOrder`: when several ports of one evaluation fail with the same error, a
free choice of which of them the error names. It has no value that a proof could see; Decode.lean reduces it to one of
the failing ports (log entry 10). -/
opaque Config.errorPortOrder : Comp → List Port → Nat

end Sys2Proof
end

