-- ==== Sys2Proof/Machine/Ports.lean ====
section
/-! DEFINITION. The port signature of each component: its formats G1 to SP (R61), which components hold state (R20,
R21), and the mnemonic of each operation (R70). -/

namespace Sys2Proof

/-- The input ports of a component in the order of R61, each with its width. A port that R61 marks `bit` is a port of
width 1, whose value the host hands over as a bus of one position: the model's choice (log entry 30). -/
def Comp.inputs : Comp → List (Port × Nat)
  | .nand | .and | .or | .xor | .halfadd => [(.a, 1), (.b, 1)]
  | .not => [(.a, 1)]
  | .mux => [(.a, 1), (.b, 1), (.sel, 1)]
  | .dmux => [(.inp, 1), (.sel, 1)]
  | .not16 | .inc16 => [(.a, 16)]
  | .and16 | .or16 | .add16 => [(.a, 16), (.b, 16)]
  | .mux16 => [(.a, 16), (.b, 16), (.sel, 1)]
  | .or8way => [(.inp, 8)]
  | .mux4way16 => [(.in0, 16), (.in1, 16), (.in2, 16), (.in3, 16), (.sel, 2)]
  | .mux8way16 =>
    [(.in0, 16), (.in1, 16), (.in2, 16), (.in3, 16), (.in4, 16), (.in5, 16), (.in6, 16), (.in7, 16), (.sel, 3)]
  | .dmux4way => [(.inp, 1), (.sel, 2)]
  | .dmux8way => [(.inp, 1), (.sel, 3)]
  | .fulladd => [(.a, 1), (.b, 1), (.c, 1)]
  | .alu => [(.x, 16), (.y, 16), (.zx, 1), (.nx, 1), (.zy, 1), (.ny, 1), (.f, 1), (.no, 1)]
  | .latch => [(.inp, 1)]
  | .bit => [(.inp, 1), (.load, 1)]
  | .register => [(.inp, 16), (.load, 1)]
  | .ram8 => [(.inp, 16), (.address, 3), (.load, 1)]
  | .ram64 => [(.inp, 16), (.address, 6), (.load, 1)]
  | .ram512 => [(.inp, 16), (.address, 9), (.load, 1)]
  | .ram4k => [(.inp, 16), (.address, 12), (.load, 1)]
  | .ram16k => [(.inp, 16), (.address, 14), (.load, 1)]
  | .pc => [(.inp, 16), (.increment, 1), (.load, 1), (.reset, 1)]

/-- The output ports of a component in the order of R61. -/
def Comp.outputs : Comp → List Port
  | .dmux => [.a, .b]
  | .dmux4way => [.out0, .out1, .out2, .out3]
  | .dmux8way => [.out0, .out1, .out2, .out3, .out4, .out5, .out6, .out7]
  | .halfadd | .fulladd => [.sum, .carry]
  | .alu => [.out, .zr, .ng]
  | .nand | .not | .and | .or | .xor | .mux | .not16 | .and16 | .or16 | .mux16 | .or8way | .mux4way16
  | .mux8way16 | .add16 | .inc16 | .latch | .bit | .register | .ram8 | .ram64 | .ram512 | .ram4k | .ram16k | .pc => [.out]

/-- The stateful components (R20); every other component is a function (R21). -/
def Comp.stateful : Comp → Bool
  | .latch | .bit | .register | .ram8 | .ram64 | .ram512 | .ram4k | .ram16k | .pc => true
  | .nand | .not | .and | .or | .xor | .mux | .dmux | .not16 | .and16 | .or16 | .mux16 | .or8way | .mux4way16
  | .mux8way16 | .dmux4way | .dmux8way | .halfadd | .fulladd | .add16 | .inc16 | .alu => false

/-- The memory block a component is, if it is one (R40). -/
def Comp.ramSize? : Comp → Option RamSize
  | .ram8 => some .ram8
  | .ram64 => some .ram64
  | .ram512 => some .ram512
  | .ram4k => some .ram4k
  | .ram16k => some .ram16k
  | .nand | .not | .and | .or | .xor | .mux | .dmux | .not16 | .and16 | .or16 | .mux16 | .or8way | .mux4way16
  | .mux8way16 | .dmux4way | .dmux8way | .halfadd | .fulladd | .add16 | .inc16 | .alu | .latch | .bit | .register
  | .pc => none

/-- The component of a memory block (R40). -/
def RamSize.comp : RamSize → Comp
  | .ram8 => .ram8
  | .ram64 => .ram64
  | .ram512 => .ram512
  | .ram4k => .ram4k
  | .ram16k => .ram16k

/-- The component an operation uses (R70). -/
def Instr.comp : Instr → Comp
  | .nand _ _ => .nand
  | .not _ => .not
  | .and _ _ => .and
  | .or _ _ => .or
  | .xor _ _ => .xor
  | .mux _ _ _ => .mux
  | .dmux _ _ => .dmux
  | .not16 _ => .not16
  | .and16 _ _ => .and16
  | .or16 _ _ => .or16
  | .mux16 _ _ _ => .mux16
  | .or8way _ => .or8way
  | .mux4way16 _ _ _ _ _ => .mux4way16
  | .mux8way16 _ _ _ _ _ _ _ _ _ => .mux8way16
  | .dmux4way _ _ => .dmux4way
  | .dmux8way _ _ => .dmux8way
  | .halfadd _ _ => .halfadd
  | .fulladd _ _ _ => .fulladd
  | .add16 _ _ => .add16
  | .inc16 _ => .inc16
  | .alu _ _ _ _ _ _ _ _ => .alu
  | .latch _ _ => .latch
  | .bit _ _ _ => .bit
  | .register _ _ _ => .register
  | .ram8 _ _ _ _ => .ram8
  | .ram64 _ _ _ _ => .ram64
  | .ram512 _ _ _ _ => .ram512
  | .ram4k _ _ _ _ => .ram4k
  | .ram16k _ _ _ _ => .ram16k
  | .pcReset _ _ _ _ | .pcLoad _ _ _ | .pcInc _ _ | .pcHold _ _ => .pc

/-- The number of the instance an operation steps; 0 for a combinational component, which has none (R21). -/
def Instr.inst : Instr → Ident
  | .latch n _ | .bit n _ _ | .register n _ _ | .ram8 n _ _ _ | .ram64 n _ _ _ | .ram512 n _ _ _ | .ram4k n _ _ _
  | .ram16k n _ _ _ | .pcReset n _ _ _ | .pcLoad n _ _ | .pcInc n _ | .pcHold n _ => n
  | .nand _ _ | .not _ | .and _ _ | .or _ _ | .xor _ _ | .mux _ _ _ | .dmux _ _ | .not16 _ | .and16 _ _ | .or16 _ _
  | .mux16 _ _ _ | .or8way _ | .mux4way16 _ _ _ _ _ | .mux8way16 _ _ _ _ _ _ _ _ _ | .dmux4way _ _ | .dmux8way _ _
  | .halfadd _ _ | .fulladd _ _ _ | .add16 _ _ | .inc16 _ | .alu _ _ _ _ _ _ _ _ => 0

end Sys2Proof
end

