-- ==== Sys2Proof/Machine/Operands.lean ====
section
/-! DEFINITION. The operand forms: how the values on an operation's ports are read and written (R61), the selector
index (R62), the ALU control word and its named values (R63, R71), and the PC control word (R64). The block has no
immediate, no addressing mode, no extension and no scaling (R65). -/

namespace Sys2Proof

/-- The k-signal bus on the port at index `i` of an operation. -/
def RawOp.bus (op : RawOp) (k i : Nat) : Bus k := Bus.ofNum k (RawBus.value (op.ports.getD i []))

/-- The signal on the one-signal port at index `i` of an operation. -/
def RawOp.signal (op : RawOp) (i : Nat) : Signal := RawBus.value (op.ports.getD i []) == 1

/-- The index a selector stands for (R62). -/
def selIndex {k : Nat} (sel : Bus k) : Nat := Bus.u sel

/-- The ALU control word c = zx nx zy ny f no, position 0 first (R63). -/
def aluControl (zx nx zy ny f no : Signal) : Bus 6 :=
  Bus.build 6 fun i => [zx, nx, zy, ny, f, no].getD i false

/-- The control words R71 gives names to, as numbers u(c). -/
def AluLabel.code : AluLabel → Nat
  | .zero => 42
  | .one => 63
  | .minusOne => 58
  | .x => 12
  | .y => 48
  | .notX => 13
  | .notY => 49
  | .negX => 15
  | .negY => 51
  | .incX => 31
  | .incY => 55
  | .decX => 14
  | .decY => 50
  | .addXY => 2
  | .subXY => 19
  | .subYX => 7
  | .andXY => 0
  | .orXY => 21

/-- The control word of a label (R71). -/
def AluLabel.control (l : AluLabel) : Bus 6 := Bus.ofNum 6 l.code

/-- An ALU operation under a whole control word, whose positions are the six control inputs in order (R63). -/
def aluUnder (c : Bus 6) (x y : Bus16) : Instr :=
  .alu x y (Bus.pos c 0) (Bus.pos c 1) (Bus.pos c 2) (Bus.pos c 3) (Bus.pos c 4) (Bus.pos c 5)

/-- The PC control word p = reset ++ increment ++ load (R64). -/
def pcControl (reset increment load : Signal) : Bus 3 :=
  Bus.build 3 fun i => [reset, increment, load].getD i false

/-- The program-counter operation its three controls select, by the rows of R70 and the priority of R190: reset over
load over increment over hold. -/
def pcOperation (n : Ident) (inp : Bus16) (increment load reset : Signal) : Instr :=
  match reset, load, increment with
  | true, _, _ => .pcReset n inp increment load
  | false, true, _ => .pcLoad n inp increment
  | false, false, true => .pcInc n inp
  | false, false, false => .pcHold n inp

/-- The operation of a memory block of size z (R171 to R175). -/
def RamSize.operation (z : RamSize) (n : Ident) (inp : Bus16) (address : Bus z.addressWidth) (load : Signal) : Instr :=
  match z, address with
  | .ram8, address => .ram8 n inp address load
  | .ram64, address => .ram64 n inp address load
  | .ram512, address => .ram512 n inp address load
  | .ram4k, address => .ram4k n inp address load
  | .ram16k, address => .ram16k n inp address load

end Sys2Proof
end

