-- ==== Sys2Proof/Decode.lean ====
section
/-! DEFINITION. The boundary between the host's untyped port values and the typed operations (R60, R61, R200 to R205):
decoding, total on any lists of numbers and refusing by name, and the encoder that writes an operation's port values. The
block has no instruction word and no bytes, so the port values are the encoding; `decodeTableWord` reads the PC control
word, the only control word spec/opcode_table.json gives bits (log entries 6 and 7). -/

namespace Sys2Proof

/-- The input ports of an operation beside the values the host put on them. -/
def RawOp.supplied (op : RawOp) : List ((Port × Nat) × RawBus) := op.comp.inputs.zip op.ports

/-- The ports whose bus has not the port's width (R201). A `bit` port counts with width 1, as R66's "a port of the wrong
width" reads, though R201's table and the gates' own rules name bus inputs only: the model's choice (log entry 30). -/
def RawOp.widthFailures (op : RawOp) : List ((Port × Nat) × RawBus) :=
  op.supplied.filter fun p => decide (p.2.length ≠ p.1.2)

/-- The ports that carry a signal outside {0, 1}, data or control, ignored by the operation or not (R200). -/
def RawOp.signalFailures (op : RawOp) : List ((Port × Nat) × RawBus) :=
  op.supplied.filter fun p => !RawBus.valid p.2

/-- The failing port an error names: the only one, or the one `errorPortOrder` picks (R205, decision D8). -/
def namedFailure (c : Comp) : List ((Port × Nat) × RawBus) → Option ((Port × Nat) × RawBus)
  | [] => none
  | [p] => some p
  | p :: q :: rest =>
    let failing := p :: q :: rest
    some (failing.getD (Config.errorPortOrder c (failing.map fun x => x.1.1) % failing.length) p)

/-- The operation whose port values these are, once they are known to be well formed (R61, R70). -/
def RawOp.assemble (op : RawOp) : Instr :=
  match op.comp with
  | .nand => .nand (op.signal 0) (op.signal 1)
  | .not => .not (op.signal 0)
  | .and => .and (op.signal 0) (op.signal 1)
  | .or => .or (op.signal 0) (op.signal 1)
  | .xor => .xor (op.signal 0) (op.signal 1)
  | .mux => .mux (op.signal 0) (op.signal 1) (op.signal 2)
  | .dmux => .dmux (op.signal 0) (op.signal 1)
  | .not16 => .not16 (op.bus 16 0)
  | .and16 => .and16 (op.bus 16 0) (op.bus 16 1)
  | .or16 => .or16 (op.bus 16 0) (op.bus 16 1)
  | .mux16 => .mux16 (op.bus 16 0) (op.bus 16 1) (op.signal 2)
  | .or8way => .or8way (op.bus 8 0)
  | .mux4way16 => .mux4way16 (op.bus 16 0) (op.bus 16 1) (op.bus 16 2) (op.bus 16 3) (op.bus 2 4)
  | .mux8way16 => .mux8way16 (op.bus 16 0) (op.bus 16 1) (op.bus 16 2) (op.bus 16 3) (op.bus 16 4) (op.bus 16 5)
      (op.bus 16 6) (op.bus 16 7) (op.bus 3 8)
  | .dmux4way => .dmux4way (op.signal 0) (op.bus 2 1)
  | .dmux8way => .dmux8way (op.signal 0) (op.bus 3 1)
  | .halfadd => .halfadd (op.signal 0) (op.signal 1)
  | .fulladd => .fulladd (op.signal 0) (op.signal 1) (op.signal 2)
  | .add16 => .add16 (op.bus 16 0) (op.bus 16 1)
  | .inc16 => .inc16 (op.bus 16 0)
  | .alu => .alu (op.bus 16 0) (op.bus 16 1) (op.signal 2) (op.signal 3) (op.signal 4) (op.signal 5) (op.signal 6)
      (op.signal 7)
  | .latch => .latch op.inst (op.signal 0)
  | .bit => .bit op.inst (op.signal 0) (op.signal 1)
  | .register => .register op.inst (op.bus 16 0) (op.signal 1)
  | .ram8 => .ram8 op.inst (op.bus 16 0) (op.bus 3 1) (op.signal 2)
  | .ram64 => .ram64 op.inst (op.bus 16 0) (op.bus 6 1) (op.signal 2)
  | .ram512 => .ram512 op.inst (op.bus 16 0) (op.bus 9 1) (op.signal 2)
  | .ram4k => .ram4k op.inst (op.bus 16 0) (op.bus 12 1) (op.signal 2)
  | .ram16k => .ram16k op.inst (op.bus 16 0) (op.bus 14 1) (op.signal 2)
  | .pc => pcOperation op.inst (op.bus 16 0) (op.signal 1) (op.signal 2) (op.signal 3)

/-- Decoding an operation from the host's port values: every input supplied (R222), then the widths (R201), then the
signals (R200); the width check comes first (R205). No control value is reserved, so nothing else is refused (R66,
R204), and nothing is padded, truncated or defaulted (R203). A `bit` port given other than one signal raises
WidthMismatchError (log entry 30). -/
def decode (op : RawOp) : Except PortError Instr :=
  if op.ports.length ≠ op.comp.inputs.length then
    .error (.inputCountError op.comp op.comp.inputs.length op.ports.length)
  else
    match namedFailure op.comp op.widthFailures with
    | some p => .error (.widthMismatchError op.comp p.1.1 p.1.2 p.2.length)
    | none =>
      match namedFailure op.comp op.signalFailures with
      | some p => .error (.invalidSignalError op.comp p.1.1)
      | none => .ok op.assemble

/-- The port values of an operation, in the order of R61. The constructor of a program-counter operation stands for
the control values its row fixes (R64, R70). -/
def Instr.ports : Instr → List RawBus
  | .nand a b | .and a b | .or a b | .xor a b | .halfadd a b => [[Signal.raw a], [Signal.raw b]]
  | .not a => [[Signal.raw a]]
  | .mux a b sel => [[Signal.raw a], [Signal.raw b], [Signal.raw sel]]
  | .dmux inp sel => [[Signal.raw inp], [Signal.raw sel]]
  | .not16 a | .inc16 a => [Bus.raw a]
  | .and16 a b | .or16 a b | .add16 a b => [Bus.raw a, Bus.raw b]
  | .mux16 a b sel => [Bus.raw a, Bus.raw b, [Signal.raw sel]]
  | .or8way inp => [Bus.raw inp]
  | .mux4way16 in0 in1 in2 in3 sel => [Bus.raw in0, Bus.raw in1, Bus.raw in2, Bus.raw in3, Bus.raw sel]
  | .mux8way16 in0 in1 in2 in3 in4 in5 in6 in7 sel =>
    [Bus.raw in0, Bus.raw in1, Bus.raw in2, Bus.raw in3, Bus.raw in4, Bus.raw in5, Bus.raw in6, Bus.raw in7,
      Bus.raw sel]
  | .dmux4way inp sel => [[Signal.raw inp], Bus.raw sel]
  | .dmux8way inp sel => [[Signal.raw inp], Bus.raw sel]
  | .fulladd a b c => [[Signal.raw a], [Signal.raw b], [Signal.raw c]]
  | .alu x y zx nx zy ny f no =>
    [Bus.raw x, Bus.raw y, [Signal.raw zx], [Signal.raw nx], [Signal.raw zy], [Signal.raw ny], [Signal.raw f],
      [Signal.raw no]]
  | .latch _ inp => [[Signal.raw inp]]
  | .bit _ inp load => [[Signal.raw inp], [Signal.raw load]]
  | .register _ inp load => [Bus.raw inp, [Signal.raw load]]
  | .ram8 _ inp address load => [Bus.raw inp, Bus.raw address, [Signal.raw load]]
  | .ram64 _ inp address load => [Bus.raw inp, Bus.raw address, [Signal.raw load]]
  | .ram512 _ inp address load => [Bus.raw inp, Bus.raw address, [Signal.raw load]]
  | .ram4k _ inp address load => [Bus.raw inp, Bus.raw address, [Signal.raw load]]
  | .ram16k _ inp address load => [Bus.raw inp, Bus.raw address, [Signal.raw load]]
  | .pcReset _ inp increment load => [Bus.raw inp, [Signal.raw increment], [Signal.raw load], [1]]
  | .pcLoad _ inp increment => [Bus.raw inp, [Signal.raw increment], [1], [0]]
  | .pcInc _ inp => [Bus.raw inp, [1], [0], [0]]
  | .pcHold _ inp => [Bus.raw inp, [0], [0], [0]]

/-- The encoder: the operation as the host would hand it over. -/
def encode (i : Instr) : RawOp := ⟨i.comp, i.inst, i.ports⟩

/-- The operation a control word of spec/opcode_table.json stands for. The table gives bits only to the four PC rows:
bit 2 is reset, bit 1 increment, bit 0 load (R64). The operand `inp` has no bits there and is zero, and the instance is
number 0. A number above 7 is no 3-bit control word and leaves a reset signal outside {0, 1}. -/
def tableOp (_nbits w : Nat) : RawOp := ⟨.pc, 0, [List.replicate 16 0, [w / 2 % 2], [w % 2], [w / 4]]⟩

/-- The operation the decoder reads from a control word of spec/opcode_table.json. -/
def decodeTableWord (nbits w : Nat) : Option Instr :=
  match decode (tableOp nbits w) with
  | .ok i => some i
  | .error _ => none

end Sys2Proof
end

