-- ==== Sys2Proof/Machine/Wiring.lean ====
section
/-! DEFINITION. The static check of a host wiring: what a cycle script must satisfy before it has a meaning (R75,
R222, R223, R233). It looks at the declarations only, never at a value. -/

namespace Sys2Proof

/-- The wiring of a machine to which no system has been given: no instance, no net, no input. -/
def System.empty : System := ⟨[], [], [], []⟩

/-- The expressions of a list of expressions. -/
def Exprs.toList : Exprs → List Expr
  | .nil => []
  | .cons e es => e :: es.toList

/-- A list of expressions as the argument of an operator. -/
def Exprs.ofList : List Expr → Exprs
  | [] => .nil
  | e :: es => .cons e (Exprs.ofList es)

mutual
/-- The number of nodes of an expression. -/
def Expr.size : Expr → Nat
  | .lit _ | .name _ | .port _ _ => 1
  | .op _ args => args.size + 1
  | .alu _ x y => x.size + y.size + 1
  | .slice e _ _ => e.size + 1
/-- The number of nodes of a list of expressions. -/
def Exprs.size : Exprs → Nat
  | .nil => 0
  | .cons e es => e.size + es.size
end

/-- The stateful component an instance's name stands for. -/
def System.comp? (sys : System) (n : Ident) : Option Comp :=
  (sys.insts.find? fun d => d.name == n).map InstDecl.comp

/-- The expression a net's name stands for. -/
def System.net? (sys : System) (n : Ident) : Option Expr :=
  (sys.nets.find? fun d => d.name == n).map NetDecl.expr

/-- The `drive` line of an instance. -/
def System.drive? (sys : System) (n : Ident) : Option DriveDecl := sys.drives.find? fun d => d.name == n

/-- What an instance's `drive` line puts on one of its input ports. -/
def DriveDecl.expr? (d : DriveDecl) (p : Port) : Option Expr := (d.ports.find? fun x => x.1 == p).map Prod.snd

/-- What drives an input port of an instance. -/
def System.driver? (sys : System) (n : Ident) (p : Port) : Option Expr :=
  match sys.drive? n with
  | some d => d.expr? p
  | none => none

/-- Every expression of the wiring. -/
def System.exprs (sys : System) : List Expr :=
  sys.nets.map NetDecl.expr ++ (sys.drives.map fun d => d.ports.map Prod.snd).flatten

/-- The number of expression nodes of the wiring. A path of dependencies through no stateful instance that is longer
passes one node twice, and so is a loop (R233). -/
def System.size (sys : System) : Nat := (sys.exprs.map Expr.size).sum

/-- All results, or the first error. -/
def firstError {ε α : Type} : List (Except ε α) → Except ε (List α)
  | [] => .ok []
  | .error e :: _ => .error e
  | .ok a :: rest =>
    match firstError rest with
    | .ok as => .ok (a :: as)
    | .error e => .error e

/-- A value is needed, and these are the outputs there are (R75). DESIGN CHOICE (log entries 19 and 33): where there are
several, as of a net or of an operator written directly as an operand, as the base of a sub-bus or as the value of a
`drive` line, the wiring is refused; R75 allows the form and names none of the outputs. -/
def needOne : Except ScriptError (List Port) → Except ScriptError Unit
  | .error e => .error e
  | .ok [_] => .ok ()
  | .ok _ => .error .severalOutputs

/-- The output ports of an expression, if it has a meaning; `fuel` bounds the path of dependencies followed. A RAM's
output depends on what drives its address in the same cycle; every other instance's output depends on nothing of the cycle
(R153, R233). A net has the output names of its expression: one that stands for another's port `zr` has the output `zr`, and
one whose operator has one output has `out`; R75 is silent on it, and this is the model's choice (log entry 31).
An operator with several outputs is refused where one value is needed (`needOne`, log entry 33). -/
def System.portsOf (sys : System) : Nat → Expr → Except ScriptError (List Port)
  | 0, _ => .error .combinationalLoop
  | fuel + 1, e =>
    match e with
    | .lit _ => .ok [.out]
    | .name n =>
      if sys.inputs.contains n then .ok [.out]
      else
        match sys.net? n with
        | some e' => sys.portsOf fuel e'
        | none => .error (.undeclared n)
    | .port n p =>
      match sys.comp? n with
      | some c =>
        if p ≠ .out then .error (.noSuchPort n p)
        else
          match c.ramSize? with
          | none => .ok [.out]
          | some _ =>
            match sys.driver? n .address with
            | none => .error (.undriven n .address)
            | some e' =>
              match needOne (sys.portsOf fuel e') with
              | .ok _ => .ok [.out]
              | .error err => .error err
      | none =>
        match sys.net? n with
        | none => .error (.undeclared n)
        | some e' =>
          match sys.portsOf fuel e' with
          | .error err => .error err
          | .ok ps => if ps.contains p then .ok [p] else .error (.noSuchPort n p)
    | .op c args =>
      if c.stateful then .error (.statefulOperator c)
      else if args.toList.length ≠ c.inputs.length then .error (.wrongArity c)
      else
        match firstError (args.toList.map fun a => needOne (sys.portsOf fuel a)) with
        | .ok _ => .ok c.outputs
        | .error err => .error err
    | .alu _ x y =>
      match needOne (sys.portsOf fuel x), needOne (sys.portsOf fuel y) with
      | .ok _, .ok _ => .ok [.out]
      | .error err, _ => .error err
      | .ok _, .error err => .error err
    | .slice e p q =>
      if q < p then .error (.emptySlice p q)
      else
        match needOne (sys.portsOf fuel e) with
        | .ok _ => .ok [.out]
        | .error err => .error err

/-- The names a wiring declares; a script has one name space (log entry 19). -/
def System.names (sys : System) : List Ident :=
  sys.insts.map InstDecl.name ++ sys.nets.map NetDecl.name ++ sys.inputs

/-- The first name that occurs twice. -/
def firstRepeat : List Ident → Option Ident
  | [] => none
  | n :: rest => if rest.contains n then some n else firstRepeat rest

/-- A `drive` line gives exactly the input ports of its instance, each once, by expressions with one value. -/
def System.checkDrive (sys : System) (d : DriveDecl) : Except ScriptError Unit :=
  match sys.comp? d.name with
  | none => .error (.driveOfNoInstance d.name)
  | some c =>
    match d.ports.find? fun x => !((c.inputs.map Prod.fst).contains x.1 && (d.ports.map Prod.fst).count x.1 == 1) with
    | some x => .error (.badDrive d.name x.1)
    | none =>
      match c.inputs.find? fun i => !(d.ports.map Prod.fst).contains i.1 with
      | some i => .error (.undriven d.name i.1)
      | none =>
        match firstError (d.ports.map fun x => needOne (sys.portsOf sys.size x.2)) with
        | .ok _ => .ok ()
        | .error e => .error e

/-- An `inst` line declares a stateful component, and the instance has a `drive` line. -/
def System.checkInst (sys : System) (d : InstDecl) : Except ScriptError Unit :=
  if !d.comp.stateful then .error (.notStateful d.name)
  else
    match sys.drive? d.name with
    | some _ => .ok ()
    | none => .error (.undriven d.name .inp)

/-- A net depends on itself through no stateful instance only (R233). -/
def System.checkNet (sys : System) (d : NetDecl) : Except ScriptError Unit :=
  match sys.portsOf sys.size d.expr with
  | .ok _ => .ok ()
  | .error e => .error e

/-- The check of a wiring: each name declared once, every instance stateful and driven by one line that gives each of
its inputs once, every name used declared, and no combinational loop. -/
def System.check (sys : System) : Except ScriptError Unit :=
  match firstRepeat sys.names with
  | some n => .error (.duplicateName n)
  | none =>
    match firstRepeat (sys.drives.map DriveDecl.name) with
    | some n => .error (.drivenTwice n)
    | none =>
      match firstError (sys.insts.map sys.checkInst) with
      | .error e => .error e
      | .ok _ =>
        match firstError (sys.drives.map sys.checkDrive) with
        | .error e => .error e
        | .ok _ =>
          match firstError (sys.nets.map sys.checkNet) with
          | .error e => .error e
          | .ok _ => .ok ()

/-- A row supplies every declared input once and nothing else (R75). -/
def System.checkRow (sys : System) (row : Row) : Except ScriptError Unit :=
  match sys.inputs.find? fun n => !(row.values.map Prod.fst).contains n with
  | some n => .error (.inputMissing n)
  | none =>
    match row.values.find? fun v => !(sys.inputs.contains v.1 && (row.values.map Prod.fst).count v.1 == 1) with
    | some v => .error (.inputUnexpected v.1)
    | none => .ok ()

end Sys2Proof
end

