-- ==== Sys2Proof/Machine/State.lean ====
section
/-! DEFINITION. The state of the block (R20 to R33): the state of every instance of every stateful component, and
beside it what a machine that runs the block needs from its host: the wiring of a system (the open parameter of decision
D20), the inputs the host has queued, and what the latest evaluation returned. -/

namespace Sys2Proof.Machine

/-- Values by number, in ascending order of number, none equal to the value an unlisted number stands for. -/
abbrev Store (α : Type) := List (Nat × α)

/-- The contents of one memory block: words by word index, an unlisted word being 0x0000 (R26, R32). The block's
smallest addressable unit is the 16-bit word; it has no bytes (R40, R44). -/
abbrev Memory := Store Bus16

/-- One value a step returned (R225): which instance or net it belongs to (none for a combinational operation), the
output port, and the signals in order, position 0 first (R44). -/
structure Output where
  source : Option Ident
  port : Port
  value : List Signal
deriving DecidableEq, Repr

/-- The state of the machine. An instance's state stands under its number; an unlisted number is an instance whose
every cell is 0, the value of construction (R32, log entry 2). -/
structure State where
  /-- R23: one signal for each LATCH. -/
  latches : Store Signal
  /-- R24: for each BIT, the state of the one LATCH it wraps. -/
  bits : Store Signal
  /-- R25: one word for each REGISTER. -/
  registers : Store Bus16
  /-- R26: the 8 words of each RAM8. -/
  ram8 : Store Memory
  /-- R26: the 64 words of each RAM64. -/
  ram64 : Store Memory
  /-- R26: the 512 words of each RAM512. -/
  ram512 : Store Memory
  /-- R26: the 4096 words of each RAM4K. -/
  ram4k : Store Memory
  /-- R26: the 16384 words of each RAM16K. -/
  ram16k : Store Memory
  /-- R27: for each PC, the word of the one REGISTER it wraps. -/
  pcs : Store Bus16
  /-- The model's own field: what the latest evaluation returned (R225). The block stores no output (R21, R28). -/
  outputs : List Output
  /-- The wiring of the host's system (R75, decision D20). -/
  system : System
  /-- What the host has asked for and the machine has not yet done, oldest first. -/
  pending : List HostInput
deriving DecidableEq, Repr

/-- How a step stops with an error. -/
inductive Fault
  /-- Raised by a clock cycle of a system in which some evaluation raised an error: the whole cycle fails and no
  instance changes (R202, decision D7). It holds the error of every failing evaluation. Safe: the machine stops, where the
  host may retry the cycle with other inputs. -/
  | cycleFailed (errors : List PortError)
deriving DecidableEq, Repr

/-- What has no meaning. -/
inductive Refusal
  /-- Raised by exec for an operation without a meaning in this model: none is left. Safe. -/
  | notModelled (mnemonic : String)
  /-- Raised by the boundary for an operation whose port values are no operation: InvalidSignalError,
  WidthMismatchError or a wrong number of inputs (R200 to R202, R222). Safe: the state is as before. -/
  | portError (error : PortError)
  /-- Raised by a step for an operation on an instance of the system: a host that steps one instance of a system alone
  runs no cycle of it, and the composite model has no such move (R223, decision D18). Safe. -/
  | steppedOutsideCycle (comp : Comp) (inst : Ident)
  /-- Raised by a construction or a cycle for a wiring without a meaning, such as one with a combinational loop (R233,
  decision D16), or with a row that does not fit it (R75). Safe. -/
  | scriptError (error : ScriptError)
deriving DecidableEq, Repr

/-- The machine right after reset, which is construction: every cell of every instance is 0 (R32, R220). No output has
been returned, no system has been wired, and the host has asked for nothing. -/
def State.reset : State where
  latches := []
  bits := []
  registers := []
  ram8 := []
  ram64 := []
  ram512 := []
  ram4k := []
  ram16k := []
  pcs := []
  outputs := []
  system := System.empty
  pending := []

end Sys2Proof.Machine
end

