-- ==== Sys2Proof/Machine/Ops.lean ====
section
/-! DEFINITION. The named operations every meaning is written with: reading and writing a store in its canonical form,
the word of a memory block (MemRead and MemWrite, R12), the non-mutating peek at an instance (R226), the write of an
instance's state at the clock edge, the outputs a step returns (R225), and reporting an error. The block has no trap and
no return from one (R207, R208): an error goes to the host with the state unchanged. -/

namespace Sys2Proof.Machine

/-- The value under number `a`, `d` if none is listed. -/
def Store.read {α : Type} (d : α) : Store α → Nat → α
  | [], _ => d
  | (k, v) :: rest, a => if k = a then v else Store.read d rest a

/-- The store without number `a`. -/
def Store.erase {α : Type} (m : Store α) (a : Nat) : Store α := m.filter fun x => decide (x.1 ≠ a)

/-- The store with an entry added before the first greater number. -/
def Store.insert {α : Type} (a : Nat) (v : α) : Store α → Store α
  | [] => [(a, v)]
  | (k, w) :: rest => if a < k then (a, v) :: (k, w) :: rest else (k, w) :: Store.insert a v rest

/-- The store with the value under number `a` replaced; the value `d` is not listed. -/
def Store.write {α : Type} [DecidableEq α] (d : α) (m : Store α) (a : Nat) (v : α) : Store α :=
  if v = d then Store.erase m a else Store.insert a v (Store.erase m a)

/-- The canonical form: numbers strictly rising, and no entry equal to what an unlisted number stands for. -/
abbrev Store.wf {α : Type} (d : α) (m : Store α) : Prop :=
  m.Pairwise (fun x y => x.1 < y.1) ∧ ∀ x ∈ m, x.2 ≠ d

/-- The canonical form of the contents of a memory block of address width k: 2^k words, no more (R40). -/
abbrev Memory.wf (k : Nat) (m : Memory) : Prop := Store.wf (0#16) m ∧ ∀ x ∈ m, x.1 < 2 ^ k

/-- A word by its index (R26, R226): what a peek at a memory block's contents reads. -/
def Memory.word (m : Memory) (a : Nat) : Bus16 := Store.read (0#16) m a

/-- MemRead(m, a) = m[u(a)] (R12). -/
def memRead {k : Nat} (m : Memory) (a : Bus k) : Bus16 := Memory.word m (Bus.u a)

/-- MemWrite(m, a, v): word u(a) replaced, every other word unchanged (R12). -/
def memWrite {k : Nat} (m : Memory) (a : Bus k) (v : Bus16) : Memory := Store.write (0#16) m (Bus.u a) v

/-- R226: peek at a LATCH. -/
def State.peekLatch (s : State) (n : Ident) : Signal := Store.read false s.latches n

/-- R226: peek at a BIT. -/
def State.peekBit (s : State) (n : Ident) : Signal := Store.read false s.bits n

/-- R226: peek at a REGISTER. -/
def State.peekRegister (s : State) (n : Ident) : Bus16 := Store.read (0#16) s.registers n

/-- R226: peek at a PC. -/
def State.peekPc (s : State) (n : Ident) : Bus16 := Store.read (0#16) s.pcs n

/-- The memory blocks of one size. -/
def State.rams (s : State) : RamSize → Store Memory
  | .ram8 => s.ram8
  | .ram64 => s.ram64
  | .ram512 => s.ram512
  | .ram4k => s.ram4k
  | .ram16k => s.ram16k

/-- R226: peek at the contents of a memory block. -/
def State.peekRam (s : State) (z : RamSize) (n : Ident) : Memory := Store.read [] (s.rams z) n

/-- The next state of a LATCH, at the edge. -/
def State.setLatch (s : State) (n : Ident) (q : Signal) : State :=
  { s with latches := Store.write false s.latches n q }

/-- The next state of a BIT, at the edge. -/
def State.setBit (s : State) (n : Ident) (q : Signal) : State :=
  { s with bits := Store.write false s.bits n q }

/-- The next state of a REGISTER, at the edge. -/
def State.setRegister (s : State) (n : Ident) (q : Bus16) : State :=
  { s with registers := Store.write (0#16) s.registers n q }

/-- The next state of a PC, at the edge. -/
def State.setPc (s : State) (n : Ident) (q : Bus16) : State :=
  { s with pcs := Store.write (0#16) s.pcs n q }

/-- The next contents of a memory block, at the edge. -/
def State.setRam (s : State) (z : RamSize) (n : Ident) (m : Memory) : State :=
  match z with
  | .ram8 => { s with ram8 := Store.write [] s.ram8 n m }
  | .ram64 => { s with ram64 := Store.write [] s.ram64 n m }
  | .ram512 => { s with ram512 := Store.write [] s.ram512 n m }
  | .ram4k => { s with ram4k := Store.write [] s.ram4k n m }
  | .ram16k => { s with ram16k := Store.write [] s.ram16k n m }

/-- An instance as constructed: every cell 0 (R32). A component without state has none to set. -/
def State.construct (s : State) (d : InstDecl) : State :=
  match d.comp with
  | .latch => s.setLatch d.name false
  | .bit => s.setBit d.name false
  | .register => s.setRegister d.name (0#16)
  | .ram8 => s.setRam .ram8 d.name []
  | .ram64 => s.setRam .ram64 d.name []
  | .ram512 => s.setRam .ram512 d.name []
  | .ram4k => s.setRam .ram4k d.name []
  | .ram16k => s.setRam .ram16k d.name []
  | .pc => s.setPc d.name (0#16)
  | .nand | .not | .and | .or | .xor | .mux | .dmux | .not16 | .and16 | .or16 | .mux16 | .or8way | .mux4way16
  | .mux8way16 | .dmux4way | .dmux8way | .halfadd | .fulladd | .add16 | .inc16 | .alu => s

/-- What the evaluation returned to the host, in the order of R61. -/
def State.give (s : State) (source : Option Ident) (outs : List (Port × List Signal)) : State :=
  { s with outputs := outs.map fun o => ⟨source, o.1, o.2⟩ }

/-- An error is reported to the host and nowhere else; the host still has the state it had (R202, R207). -/
def raiseError (e : PortError) : Host.Outcome State Fault Refusal := .refused (.portError e)

/-- The instance is part of the system the host has wired. -/
def State.wired (s : State) (c : Comp) (n : Ident) : Bool := s.system.insts.contains ⟨n, c⟩

/-- Every store of the state is canonical, and every memory block has words only where its address reaches (R40). -/
def State.wf (s : State) : Prop :=
  Store.wf false s.latches ∧ Store.wf false s.bits ∧ Store.wf (0#16) s.registers ∧ Store.wf (0#16) s.pcs ∧
    ∀ z : RamSize, Store.wf [] (s.rams z) ∧ ∀ x ∈ s.rams z, Memory.wf z.addressWidth x.2

end Sys2Proof.Machine
end

