-- ==== Sys2Proof/Machine/Arithmetic.lean ====
section
/-! DEFINITION. The arithmetic unit as the source builds it (R130 to R135), and the meanings of its operations. Every
result is 16 bits wide and wraps; there is no carry output and no overflow flag (R136). -/

namespace Sys2Proof.Machine

/-- R130: the sum and the carry of two bits. -/
def halfAdd (a b : Signal) : Signal × Signal := (xorGate a b, andGate a b)

/-- R131: two half adders chained, their carries merged by OR. -/
def fullAdd (a b c : Signal) : Signal × Signal :=
  let (s1, c1) := halfAdd a b
  let (sum, c2) := halfAdd s1 c
  (sum, orGate c1 c2)

/-- R132: the sum at the n least significant positions and the carry out of them. The chain begins with a half adder at
position 15; a full adder stands at every further position, 15 of them in all (90_conflicts.md C1). -/
def addChain (a b : Bus16) : (n : Nat) → Bus n × Signal
  | 0 => (0#0, false)
  | 1 =>
    let (sum, carry) := halfAdd (Bus.pos a 15) (Bus.pos b 15)
    (Bus.build 1 fun _ => sum, carry)
  | n + 2 =>
    let (low, k) := addChain a b (n + 1)
    let (sum, carry) := fullAdd (Bus.pos a (14 - n)) (Bus.pos b (14 - n)) k
    (BitVec.cons sum low, carry)

/-- R132: the whole chain; the carry out of position 0 is discarded. -/
def add16Gate (a b : Bus16) : Bus16 := (addChain a b 16).1

/-- R133: the adder against the constant bus 0...01 (R65). -/
def inc16Gate (a : Bus16) : Bus16 := add16Gate a (1#16)

/-- R134: an operand zeroed if `z`, then inverted if `n`. -/
def aluOperand (v : Bus16) (z n : Signal) : Bus16 :=
  let v1 := mux16Gate v (0#16) z
  mux16Gate v1 (not16Gate v1) n

/-- R134: the ALU's result. -/
def aluResult (x y : Bus16) (zx nx zy ny f no : Signal) : Bus16 :=
  let x2 := aluOperand x zx nx
  let y2 := aluOperand y zy ny
  let r := mux16Gate (and16Gate x2 y2) (add16Gate x2 y2) f
  mux16Gate r (not16Gate r) no

/-- R130 HALFADD. -/
def execHalfadd (a b : Signal) (s : State) : Host.Outcome State Fault Refusal :=
  .next (s.give none [(.sum, [(halfAdd a b).1]), (.carry, [(halfAdd a b).2])])

/-- R131 FULLADD. -/
def execFulladd (a b c : Signal) (s : State) : Host.Outcome State Fault Refusal :=
  .next (s.give none [(.sum, [(fullAdd a b c).1]), (.carry, [(fullAdd a b c).2])])

/-- R132 ADD16. -/
def execAdd16 (a b : Bus16) (s : State) : Host.Outcome State Fault Refusal :=
  .next (s.give none [(.out, Bus.signals (add16Gate a b))])

/-- R133 INC16. -/
def execInc16 (a : Bus16) (s : State) : Host.Outcome State Fault Refusal :=
  .next (s.give none [(.out, Bus.signals (inc16Gate a))])

/-- R134 ALU, with the flags of R135. -/
def execAlu (x y : Bus16) (zx nx zy ny f no : Signal) (s : State) : Host.Outcome State Fault Refusal :=
  let out := aluResult x y zx nx zy ny f no
  .next (s.give none [(.out, Bus.signals out), (.zr, [zeroFlag out]), (.ng, [negativeFlag out])])

end Sys2Proof.Machine
end

