-- ==== Sys2Proof/Machine/Combinational.lean ====
section
/-! DEFINITION. The meanings of the combinational gate operations (R100 to R115): each returns the gate's outputs and
changes no state (R11, R21). -/

namespace Sys2Proof.Machine

/-- R100 NAND. -/
def execNand (a b : Signal) (s : State) : Host.Outcome State Fault Refusal :=
  .next (s.give none [(.out, [nandGate a b])])

/-- R101 NOT. -/
def execNot (a : Signal) (s : State) : Host.Outcome State Fault Refusal :=
  .next (s.give none [(.out, [notGate a])])

/-- R102 AND. -/
def execAnd (a b : Signal) (s : State) : Host.Outcome State Fault Refusal :=
  .next (s.give none [(.out, [andGate a b])])

/-- R103 OR. -/
def execOr (a b : Signal) (s : State) : Host.Outcome State Fault Refusal :=
  .next (s.give none [(.out, [orGate a b])])

/-- R104 XOR. -/
def execXor (a b : Signal) (s : State) : Host.Outcome State Fault Refusal :=
  .next (s.give none [(.out, [xorGate a b])])

/-- R105 MUX. -/
def execMux (a b sel : Signal) (s : State) : Host.Outcome State Fault Refusal :=
  .next (s.give none [(.out, [muxGate a b sel])])

/-- R106 DMUX. -/
def execDmux (inp sel : Signal) (s : State) : Host.Outcome State Fault Refusal :=
  .next (s.give none [(.a, [(dmuxGate inp sel).1]), (.b, [(dmuxGate inp sel).2])])

/-- R107 NOT16. -/
def execNot16 (a : Bus16) (s : State) : Host.Outcome State Fault Refusal :=
  .next (s.give none [(.out, Bus.signals (not16Gate a))])

/-- R108 AND16. -/
def execAnd16 (a b : Bus16) (s : State) : Host.Outcome State Fault Refusal :=
  .next (s.give none [(.out, Bus.signals (and16Gate a b))])

/-- R109 OR16. -/
def execOr16 (a b : Bus16) (s : State) : Host.Outcome State Fault Refusal :=
  .next (s.give none [(.out, Bus.signals (or16Gate a b))])

/-- R110 MUX16. -/
def execMux16 (a b : Bus16) (sel : Signal) (s : State) : Host.Outcome State Fault Refusal :=
  .next (s.give none [(.out, Bus.signals (mux16Gate a b sel))])

/-- R111 OR8WAY. -/
def execOr8way (inp : Bus 8) (s : State) : Host.Outcome State Fault Refusal :=
  .next (s.give none [(.out, [or8wayGate inp])])

/-- R112 MUX4WAY16. -/
def execMux4way16 (in0 in1 in2 in3 : Bus16) (sel : Bus 2) (s : State) : Host.Outcome State Fault Refusal :=
  .next (s.give none [(.out, Bus.signals (mux4way16Gate in0 in1 in2 in3 sel))])

/-- R113 MUX8WAY16. -/
def execMux8way16 (in0 in1 in2 in3 in4 in5 in6 in7 : Bus16) (sel : Bus 3) (s : State) :
    Host.Outcome State Fault Refusal :=
  .next (s.give none [(.out, Bus.signals (mux8way16Gate in0 in1 in2 in3 in4 in5 in6 in7 sel))])

/-- R114 DMUX4WAY. -/
def execDmux4way (inp : Signal) (sel : Bus 2) (s : State) : Host.Outcome State Fault Refusal :=
  let o := dmux4wayGate inp sel
  .next (s.give none [(.out0, [Bus.pos o 0]), (.out1, [Bus.pos o 1]), (.out2, [Bus.pos o 2]), (.out3, [Bus.pos o 3])])

/-- R115 DMUX8WAY. -/
def execDmux8way (inp : Signal) (sel : Bus 3) (s : State) : Host.Outcome State Fault Refusal :=
  let o := dmux8wayGate inp sel
  .next (s.give none [(.out0, [Bus.pos o 0]), (.out1, [Bus.pos o 1]), (.out2, [Bus.pos o 2]), (.out3, [Bus.pos o 3]),
    (.out4, [Bus.pos o 4]), (.out5, [Bus.pos o 5]), (.out6, [Bus.pos o 6]), (.out7, [Bus.pos o 7])])

end Sys2Proof.Machine
end

