-- ==== Sys2Proof/Machine/MemoryBlocks.lean ====
section
/-! DEFINITION. The memory blocks RAM8 to RAM16K (R170 to R175), in the flat form of R170: contents indexed by u(address)
(R43, decision D17). Machine/RamTree.lean holds the structural form. -/

namespace Sys2Proof.Machine

/-- R170, flat form: the output is the word before the edge; with load = 1 the addressed word, and no other, becomes the
input. -/
def ramStep {k : Nat} (m : Memory) (inp : Bus16) (address : Bus k) (load : Signal) : Bus16 × Memory :=
  (memRead m address, if load then memWrite m address inp else m)

/-- One clock cycle of one memory block of size z (R170). -/
def ramCycle {k : Nat} (z : RamSize) (n : Ident) (inp : Bus16) (address : Bus k) (load : Signal) (s : State) : State :=
  let (out, m) := ramStep (s.peekRam z n) inp address load
  (s.setRam z n m).give (some n) [(.out, Bus.signals out)]

/-- R171 RAM8. -/
def execRam8 (n : Ident) (inp : Bus16) (address : Bus 3) (load : Signal) (s : State) :
    Host.Outcome State Fault Refusal :=
  .next (ramCycle .ram8 n inp address load s)

/-- R172 RAM64. -/
def execRam64 (n : Ident) (inp : Bus16) (address : Bus 6) (load : Signal) (s : State) :
    Host.Outcome State Fault Refusal :=
  .next (ramCycle .ram64 n inp address load s)

/-- R173 RAM512. -/
def execRam512 (n : Ident) (inp : Bus16) (address : Bus 9) (load : Signal) (s : State) :
    Host.Outcome State Fault Refusal :=
  .next (ramCycle .ram512 n inp address load s)

/-- R174 RAM4K. -/
def execRam4k (n : Ident) (inp : Bus16) (address : Bus 12) (load : Signal) (s : State) :
    Host.Outcome State Fault Refusal :=
  .next (ramCycle .ram4k n inp address load s)

/-- R175 RAM16K. -/
def execRam16k (n : Ident) (inp : Bus16) (address : Bus 14) (load : Signal) (s : State) :
    Host.Outcome State Fault Refusal :=
  .next (ramCycle .ram16k n inp address load s)

end Sys2Proof.Machine
end

