-- ==== Sys2Proof/Machine/Sequential.lean ====
section
/-! DEFINITION. The sequential primitives (R150 to R153): each is a machine `step(q, inputs) = (outputs, q')`, composed
from the LATCH step as the source composes it (R155), and the meanings of their operations: one clock cycle of one
instance. -/

namespace Sys2Proof.Machine

/-- R150: the output is the state before the edge; the next state is the input. -/
def latchStep (q inp : Signal) : Signal × Signal := (q, inp)

/-- R151: a LATCH fed by MUX(q, in, load). -/
def bitStep (q inp load : Signal) : Signal × Signal := latchStep q (muxGate q inp load)

/-- R152: 16 BITs, each against its position, with one shared load. -/
def registerStep (q inp : Bus16) (load : Signal) : Bus16 × Bus16 :=
  (Bus.build 16 fun i => (bitStep (Bus.pos q i) (Bus.pos inp i) load).1,
    Bus.build 16 fun i => (bitStep (Bus.pos q i) (Bus.pos inp i) load).2)

/-- R150 LATCH. -/
def execLatch (n : Ident) (inp : Signal) (s : State) : Host.Outcome State Fault Refusal :=
  let (out, q) := latchStep (s.peekLatch n) inp
  .next ((s.setLatch n q).give (some n) [(.out, [out])])

/-- R151 BIT. -/
def execBit (n : Ident) (inp load : Signal) (s : State) : Host.Outcome State Fault Refusal :=
  let (out, q) := bitStep (s.peekBit n) inp load
  .next ((s.setBit n q).give (some n) [(.out, [out])])

/-- R152 REGISTER. -/
def execRegister (n : Ident) (inp : Bus16) (load : Signal) (s : State) : Host.Outcome State Fault Refusal :=
  let (out, q) := registerStep (s.peekRegister n) inp load
  .next ((s.setRegister n q).give (some n) [(.out, Bus.signals out)])

end Sys2Proof.Machine
end

