-- ==== Sys2Proof/Machine/ProgramCounter.lean ====
section
/-! DEFINITION. The program counter (R190 to R196): one register loaded on every cycle with the candidate an 8-way
multiplexer picks by (reset, increment, load), and the meanings of its four operations. -/

namespace Sys2Proof.Machine

/-- R190: the candidates hold, load, increment, load, and four times zero; the register always loads (R195). -/
def pcStep (q inp : Bus16) (increment load reset : Signal) : Bus16 × Bus16 :=
  let inc1 := inc16Gate q
  let p := pcControl reset increment load
  let next := mux8way16Gate q inp inc1 inp (0#16) (0#16) (0#16) (0#16) p
  registerStep q next true

/-- One clock cycle of one PC (R190). -/
def pcCycle (n : Ident) (inp : Bus16) (increment load reset : Signal) (s : State) : State :=
  let (out, q) := pcStep (s.peekPc n) inp increment load reset
  (s.setPc n q).give (some n) [(.out, Bus.signals out)]

/-- R191 PC.reset: reset = 1. -/
def execPcReset (n : Ident) (inp : Bus16) (increment load : Signal) (s : State) : Host.Outcome State Fault Refusal :=
  .next (pcCycle n inp increment load true s)

/-- R192 PC.load: reset = 0, load = 1. -/
def execPcLoad (n : Ident) (inp : Bus16) (increment : Signal) (s : State) : Host.Outcome State Fault Refusal :=
  .next (pcCycle n inp increment true false s)

/-- R193 PC.inc: reset = 0, load = 0, increment = 1. -/
def execPcInc (n : Ident) (inp : Bus16) (s : State) : Host.Outcome State Fault Refusal :=
  .next (pcCycle n inp true false false s)

/-- R194 PC.hold: reset = 0, load = 0, increment = 0. -/
def execPcHold (n : Ident) (inp : Bus16) (s : State) : Host.Outcome State Fault Refusal :=
  .next (pcCycle n inp false false false s)

end Sys2Proof.Machine
end

