-- ==== Sys2Proof/Machine/Dispatch.lean ====
section
/-! DEFINITION. One arm per component operation (R70). -/

namespace Sys2Proof.Machine

def exec (i : Instr) (s : State) : Host.Outcome State Fault Refusal :=
  match i with
  | .nand a b => Sys2Proof.Machine.execNand a b s
  | .not a => Sys2Proof.Machine.execNot a s
  | .and a b => Sys2Proof.Machine.execAnd a b s
  | .or a b => Sys2Proof.Machine.execOr a b s
  | .xor a b => Sys2Proof.Machine.execXor a b s
  | .mux a b sel => Sys2Proof.Machine.execMux a b sel s
  | .dmux inp sel => Sys2Proof.Machine.execDmux inp sel s
  | .not16 a => Sys2Proof.Machine.execNot16 a s
  | .and16 a b => Sys2Proof.Machine.execAnd16 a b s
  | .or16 a b => Sys2Proof.Machine.execOr16 a b s
  | .mux16 a b sel => Sys2Proof.Machine.execMux16 a b sel s
  | .or8way inp => Sys2Proof.Machine.execOr8way inp s
  | .mux4way16 in0 in1 in2 in3 sel => Sys2Proof.Machine.execMux4way16 in0 in1 in2 in3 sel s
  | .mux8way16 in0 in1 in2 in3 in4 in5 in6 in7 sel => Sys2Proof.Machine.execMux8way16 in0 in1 in2 in3 in4 in5 in6 in7 sel s
  | .dmux4way inp sel => Sys2Proof.Machine.execDmux4way inp sel s
  | .dmux8way inp sel => Sys2Proof.Machine.execDmux8way inp sel s
  | .halfadd a b => Sys2Proof.Machine.execHalfadd a b s
  | .fulladd a b c => Sys2Proof.Machine.execFulladd a b c s
  | .add16 a b => Sys2Proof.Machine.execAdd16 a b s
  | .inc16 a => Sys2Proof.Machine.execInc16 a s
  | .alu x y zx nx zy ny f no => Sys2Proof.Machine.execAlu x y zx nx zy ny f no s
  | .latch n inp => Sys2Proof.Machine.execLatch n inp s
  | .bit n inp load => Sys2Proof.Machine.execBit n inp load s
  | .register n inp load => Sys2Proof.Machine.execRegister n inp load s
  | .ram8 n inp address load => Sys2Proof.Machine.execRam8 n inp address load s
  | .ram64 n inp address load => Sys2Proof.Machine.execRam64 n inp address load s
  | .ram512 n inp address load => Sys2Proof.Machine.execRam512 n inp address load s
  | .ram4k n inp address load => Sys2Proof.Machine.execRam4k n inp address load s
  | .ram16k n inp address load => Sys2Proof.Machine.execRam16k n inp address load s
  | .pcReset n inp increment load => Sys2Proof.Machine.execPcReset n inp increment load s
  | .pcLoad n inp increment => Sys2Proof.Machine.execPcLoad n inp increment s
  | .pcInc n inp => Sys2Proof.Machine.execPcInc n inp s
  | .pcHold n inp => Sys2Proof.Machine.execPcHold n inp s

end Sys2Proof.Machine
end

