-- ==== Sys2Proof/Machine/Cycle.lean ====
section
/-! DEFINITION. What the machine does with a request of its host: one operation of one component (R153, R223), one
clock cycle of a whole system (R75, R223, R224), and the construction of a system (R220, R222). A cycle computes every
value from the states before the edge, then steps every instance once, all at one edge (R154). -/

namespace Sys2Proof.Machine

/-- Why the evaluation of an expression gives no value: an error some evaluation raised, or a wiring without meaning. -/
inductive EvalError
  /-- The error of one combinational evaluation. -/
  | gate (e : PortError)
  /-- The error of one evaluation of instance n, from all the inputs it was given. -/
  | step (n : Ident) (e : PortError)
  /-- That same evaluation of memory block n as far as its address shows it: what its readers get in place of its
  output. It is reported only if the instance's own `step` error is not (R205: one error per evaluation). -/
  | address (n : Ident) (e : PortError)
  /-- The wiring has no meaning here. -/
  | script (e : ScriptError)
deriving DecidableEq, Repr

/-- The values a component put on its output ports. -/
abbrev PortValues := List (Port × RawBus)

/-- All results, or the errors of every part that failed. -/
def collect {ε α : Type} : List (Except (List ε) α) → Except (List ε) (List α)
  | [] => .ok []
  | .ok a :: rest =>
    match collect rest with
    | .ok as => .ok (a :: as)
    | .error es => .error es
  | .error e :: rest =>
    match collect rest with
    | .ok _ => .error e
    | .error es => .error (e ++ es)

/-- The values an evaluation was given, a well-formed 0 standing on each port whose value is missing. -/
def given (c : Comp) (ins : List (Except (List EvalError) RawBus)) : List RawBus :=
  List.zipWith (fun i r => match r with | .ok v => v | .error _ => List.replicate i.2 0) c.inputs ins

/-- One evaluation of a component in a cycle: the operation its inputs make, or the errors there are. An evaluation
that lacks an input gives the errors for which it lacks it, and its own error if the inputs it was given show one; it has
at most one error of its own, the width's before the signal's (R205, decision D8; log entry 11). -/
def evaluation (own : PortError → EvalError) (c : Comp) (n : Ident) (ins : List (Except (List EvalError) RawBus)) :
    Except (List EvalError) Instr :=
  match collect ins with
  | .ok vs =>
    match decode ⟨c, n, vs⟩ with
    | .error e => .error [own e]
    | .ok i => .ok i
  | .error es =>
    match decode ⟨c, n, given c ins⟩ with
    | .error e => .error (es ++ [own e])
    | .ok _ => .error es

/-- The outputs of one operation in the state before the edge; the state it would lead to is not taken. -/
def outputsOf (r : Except (List EvalError) Instr) (s : State) : Except (List EvalError) PortValues :=
  match r with
  | .error es => .error es
  | .ok i =>
    match exec i s with
    | .next t => .ok (t.outputs.map fun o => (o.port, rawOf o.value))
    | .fault _ | .refused _ => .error [.script (.statefulOperator i.comp)]

/-- The output an instance drives during a cycle (R153): a function of its state before the edge and, for a memory
block, of the address; the other inputs are of no effect on it and are given as 0. -/
def preEdge (c : Comp) (n : Ident) (address : RawBus) (s : State) : Except (List EvalError) PortValues :=
  outputsOf
    (evaluation (.address n) c n
      (c.inputs.map fun i => .ok (if i.1 = .address then address else List.replicate i.2 0))) s

/-- The one value of an expression that has one output; of several outputs R75 names none (log entry 33). -/
def oneValue : Except (List EvalError) PortValues → Except (List EvalError) RawBus
  | .error es => .error es
  | .ok [v] => .ok v.2
  | .ok _ => .error [.script .severalOutputs]

/-- The value on the output of this port name. A net's outputs keep the port names of its expression (log entry 31). -/
def selectPort (n : Ident) (p : Port) : Except (List EvalError) PortValues → Except (List EvalError) PortValues
  | .error es => .error es
  | .ok vs =>
    match vs.find? fun v => v.1 == p with
    | some v => .ok [v]
    | none => .error [.script (.noSuchPort n p)]

/-- The sub-bus of positions p through q (R12). -/
def sliceValue (p q : Nat) : Except (List EvalError) RawBus → Except (List EvalError) PortValues
  | .error es => .error es
  | .ok v =>
    if q < p then .error [.script (.emptySlice p q)]
    else if v.length ≤ q then .error [.script (.sliceOutOfRange q v.length)]
    else .ok [(.out, (v.drop p).take (q - p + 1))]

/-- The value the row gives an input. -/
def rowValue? (row : Row) (n : Ident) : Option RawBus := (row.values.find? fun v => v.1 == n).map Prod.snd

/-- The values of an expression in one cycle, from the states before the edge and the row's inputs (R75, R224). The
fuel bounds the path of dependencies followed; a path longer than the wiring has nodes is a loop (R233). -/
def evalPorts (s : State) (row : Row) : Nat → Expr → Except (List EvalError) PortValues
  | 0, _ => .error [.script .combinationalLoop]
  | fuel + 1, e =>
    match e with
    | .lit v => .ok [(.out, rawOf v)]
    | .name n =>
      match rowValue? row n with
      | some v => .ok [(.out, v)]
      | none =>
        match s.system.net? n with
        | some e' => evalPorts s row fuel e'
        | none => .error [.script (.undeclared n)]
    | .port n p =>
      match s.system.comp? n with
      | some c =>
        match c.ramSize? with
        | none => selectPort n p (preEdge c n [] s)
        | some _ =>
          match s.system.driver? n .address with
          | none => .error [.script (.undriven n .address)]
          | some e' =>
            match oneValue (evalPorts s row fuel e') with
            | .error es => .error es
            | .ok address => selectPort n p (preEdge c n address s)
      | none =>
        match s.system.net? n with
        | none => .error [.script (.undeclared n)]
        | some e' => selectPort n p (evalPorts s row fuel e')
    | .op c args =>
      if c.stateful then .error [.script (.statefulOperator c)]
      else outputsOf (evaluation .gate c 0 (args.toList.map fun a => oneValue (evalPorts s row fuel a))) s
    | .alu l x y =>
      selectPort 0 .out
        (outputsOf
          (evaluation .gate .alu 0
            (oneValue (evalPorts s row fuel x) :: oneValue (evalPorts s row fuel y) ::
              (Bus.signals l.control).map fun b => .ok [Signal.raw b])) s)
    | .slice e p q => sliceValue p q (oneValue (evalPorts s row fuel e))

/-- The one value of an expression of the wiring in one cycle. -/
def evalOne (s : State) (row : Row) (e : Expr) : Except (List EvalError) RawBus :=
  oneValue (evalPorts s row s.system.size e)

/-- What its `drive` line puts on each input of an instance in this cycle (R75). -/
def instanceInputs (s : State) (row : Row) (d : InstDecl) : List (Except (List EvalError) RawBus) :=
  d.comp.inputs.map fun i =>
    match s.system.driver? d.name i.1 with
    | none => .error [.script (.undriven d.name i.1)]
    | some e => evalOne s row e

/-- The operation an instance does in this cycle: its component on the inputs its `drive` line names (R75). -/
def instanceOp (s : State) (row : Row) (d : InstDecl) : Except (List EvalError) Instr :=
  evaluation (.step d.name) d.comp d.name (instanceInputs s row d)

/-- The values of a net, as outputs of the cycle. A net that only repeats an input of the row is no component, so it
raises nothing; it is listed where its signals are two-valued. -/
def netOutputs (s : State) (row : Row) (d : NetDecl) : Except (List EvalError) (List Output) :=
  match evalPorts s row s.system.size d.expr with
  | .error es => .error es
  | .ok vs => .ok (vs.filterMap fun v => (RawBus.signals? v.2).map fun value => ⟨some d.name, v.1, value⟩)

/-- Every operation of the cycle, one for each instance of the system, and the values of the nets; all from the states
before the edge, so the order in which they are computed is of no effect (R154, R224). -/
def evaluateCycle (s : State) (row : Row) : Except (List EvalError) (List Instr × List Output) :=
  match collect (s.system.insts.map (instanceOp s row)), collect (s.system.nets.map (netOutputs s row)) with
  | .ok is, .ok nets => .ok (is, nets.flatten)
  | .error e1, .error e2 => .error (e1 ++ e2)
  | .error e1, .ok _ => .error e1
  | .ok _, .error e2 => .error e2

/-- Each operation in turn, the returned outputs gathered. Operations on distinct instances do not see each other's
next state, so this is the simultaneous edge of R154. -/
def runAll : List Instr → State → List Output → Host.Outcome State Fault Refusal
  | [], s, outs => .next { s with outputs := outs }
  | i :: is, s, outs =>
    match exec i s with
    | .next t => runAll is t (outs ++ t.outputs)
    | .fault r => .fault r
    | .refused r => .refused r

/-- The list without repetitions. -/
def distinct {α : Type} [DecidableEq α] : List α → List α
  | [] => []
  | a :: rest => a :: (distinct rest).filter fun x => decide (x ≠ a)

/-- The instance's own evaluation is among those that raised an error. -/
def stepRaised (n : Ident) : EvalError → Bool
  | .step m _ => m == n
  | .gate _ | .address _ _ | .script _ => false

/-- The errors of the evaluations, one of each (R205), each listed once. -/
def raisedErrors (es : List EvalError) : List PortError :=
  distinct (es.filterMap fun e =>
    match e with
    | .gate x | .step _ x => some x
    | .address n x => if es.any (stepRaised n) then none else some x
    | .script _ => none)

/-- A cycle that gives no value: refused if the wiring has no meaning, else failed as a whole with the error of every
evaluation that raised one (R202, decision D7). DESIGN CHOICE (log entry 32): where a sub-bus is out of range and a
component raised an error as well, the refusal comes first and the component's error is not reported; the spec gives no
precedence between the two. -/
def failCycle (es : List EvalError) : Host.Outcome State Fault Refusal :=
  let scripts := es.filterMap fun e =>
    match e with
    | .script x => some x
    | .gate _ | .step _ _ | .address _ _ => none
  match scripts with
  | x :: _ => .refused (.scriptError x)
  | [] => .fault (.cycleFailed (raisedErrors es))

/-- One clock cycle of the system (R223, R224): every instance steps exactly once. The wiring is checked
first, then the row, then the components are evaluated; that order is the model's choice (log entry 34). -/
def runCycle (row : Row) (s : State) : Host.Outcome State Fault Refusal :=
  match s.system.check with
  | .error e => .refused (.scriptError e)
  | .ok _ =>
    match s.system.checkRow row with
    | .error e => .refused (.scriptError e)
    | .ok _ =>
      match evaluateCycle s row with
      | .error es => failCycle es
      | .ok (is, nets) =>
        match runAll is s [] with
        | .next t => .next { t with outputs := t.outputs ++ nets }
        | .fault r => .fault r
        | .refused r => .refused r

/-- Construction (R220, R222): the system's instances are made anew, every cell 0, and its wiring is taken. -/
def constructSystem (sys : System) (s : State) : Host.Outcome State Fault Refusal :=
  match sys.check with
  | .error e => .refused (.scriptError e)
  | .ok _ => .next { sys.insts.foldl State.construct s with system := sys, outputs := [] }

/-- One evaluation of one component (R153). An instance of the system is stepped by the system's cycle only (R223,
decision D18). DESIGN CHOICE (log entry 34): where the port values are ill-formed as well, their error is reported, and not
that the instance is the system's; the spec gives no precedence between the two. -/
def evaluateOperation (op : RawOp) (s : State) : Host.Outcome State Fault Refusal :=
  match decode op with
  | .error e => raiseError e
  | .ok i =>
    if i.comp.stateful && s.wired i.comp i.inst then .refused (.steppedOutsideCycle i.comp i.inst)
    else exec i s

/-- What the machine does with one request of its host. -/
def perform (h : HostInput) (s : State) : Host.Outcome State Fault Refusal :=
  match h with
  | .operation op => evaluateOperation op s
  | .cycle row => runCycle row s
  | .construct sys => constructSystem sys s

/-- A cycle script as the host submits it to a machine after reset: construct its instances, then run its rows (R75,
R222). -/
def scriptStart (sc : Script) : State :=
  { State.reset with pending := .construct sc.system :: sc.rows.map HostInput.cycle }

end Sys2Proof.Machine
end

