-- ==== Sys2Proof/Machine/Step.lean ====
section
/-! DEFINITION. One step of the machine: the oldest request of the host is done. The block fetches no instruction (R53,
R60); what it is to do comes from its host, and State.pending holds it. -/

namespace Sys2Proof.Machine

/-- One step. Where the host asks for nothing, no cycle happens and no state changes (R216, R223). -/
def step (s : State) : Host.Outcome State Fault Refusal :=
  match s.pending with
  | [] => .next s
  | h :: rest => perform h { s with pending := rest }

/-- The state whose very next step is the operation of this control word (Decode.lean's `tableOp`): it stands first in
what the host asks for, and no system is wired, so that an instance may be stepped by itself (R223). -/
def State.withFetchWord (s : State) (nbits w : Nat) : State :=
  { s with system := System.empty, pending := .operation (tableOp nbits w) :: s.pending }

end Sys2Proof.Machine
end

