-- ==== Sys2Proof/Machine/RamTree.lean ====
section
/-! DEFINITION. The memory blocks in the structural form of R170: a tree of registers whose every level uses the most
significant address positions to give one child the load (R43, R176, R177). The machine runs the flat form; that the two
agree is a statement of the certificates. -/

namespace Sys2Proof.Machine

/-- A memory block's tree (R26): a REGISTER leaf, a level of eight children (3 address bits), or RAM16K's top level of
four (2 address bits). -/
inductive RamTree
  | reg (q : Bus16)
  | four (c0 c1 c2 c3 : RamTree)
  | eight (c0 c1 c2 c3 c4 c5 c6 c7 : RamTree)
deriving DecidableEq, Repr

/-- The address bits of each level, top level first (R43). -/
def ramLevels : RamSize → List Nat
  | .ram8 => [3]
  | .ram64 => [3, 3]
  | .ram512 => [3, 3, 3]
  | .ram4k => [3, 3, 3, 3]
  | .ram16k => [2, 3, 3, 3, 3]

/-- The tree has these levels, all leaves at the same depth. -/
def RamTree.hasLevels : RamTree → List Nat → Bool
  | .reg _, [] => true
  | .four c0 c1 c2 c3, 2 :: ls => c0.hasLevels ls && c1.hasLevels ls && c2.hasLevels ls && c3.hasLevels ls
  | .eight c0 c1 c2 c3 c4 c5 c6 c7, 3 :: ls =>
    c0.hasLevels ls && c1.hasLevels ls && c2.hasLevels ls && c3.hasLevels ls && c4.hasLevels ls && c5.hasLevels ls &&
      c6.hasLevels ls && c7.hasLevels ls
  | _, _ => false

/-- The tree of a memory block as constructed: every register 0x0000 (R32). -/
def RamTree.zeros : List Nat → RamTree
  | [] => .reg (0#16)
  | d :: ls =>
    let c := RamTree.zeros ls
    if d = 2 then .four c c c c else .eight c c c c c c c c

/-- The first signals of an address, as the selector of a level. -/
def topBits (k : Nat) (address : List Signal) : Bus k := Bus.build k fun i => address.getD i false

/-- R170, structural form: the demultiplexer gives the load to the child the top bits name; every child steps with the
remaining bits; the multiplexer takes the output of the child the top bits name. -/
def RamTree.step (inp : Bus16) : RamTree → List Signal → Signal → Bus16 × RamTree
  | .reg q, _, load => ((registerStep q inp load).1, .reg (registerStep q inp load).2)
  | .four c0 c1 c2 c3, address, load =>
    let top := topBits 2 address
    let rest := address.drop 2
    let l := dmux4wayGate load top
    let r0 := c0.step inp rest (Bus.pos l 0)
    let r1 := c1.step inp rest (Bus.pos l 1)
    let r2 := c2.step inp rest (Bus.pos l 2)
    let r3 := c3.step inp rest (Bus.pos l 3)
    (mux4way16Gate r0.1 r1.1 r2.1 r3.1 top, .four r0.2 r1.2 r2.2 r3.2)
  | .eight c0 c1 c2 c3 c4 c5 c6 c7, address, load =>
    let top := topBits 3 address
    let rest := address.drop 3
    let l := dmux8wayGate load top
    let r0 := c0.step inp rest (Bus.pos l 0)
    let r1 := c1.step inp rest (Bus.pos l 1)
    let r2 := c2.step inp rest (Bus.pos l 2)
    let r3 := c3.step inp rest (Bus.pos l 3)
    let r4 := c4.step inp rest (Bus.pos l 4)
    let r5 := c5.step inp rest (Bus.pos l 5)
    let r6 := c6.step inp rest (Bus.pos l 6)
    let r7 := c7.step inp rest (Bus.pos l 7)
    (mux8way16Gate r0.1 r1.1 r2.1 r3.1 r4.1 r5.1 r6.1 r7.1 top,
      .eight r0.2 r1.2 r2.2 r3.2 r4.2 r5.2 r6.2 r7.2)

/-- The words of a tree in the order of their index (R43): child by child. -/
def RamTree.words : RamTree → List Bus16
  | .reg q => [q]
  | .four c0 c1 c2 c3 => c0.words ++ c1.words ++ c2.words ++ c3.words
  | .eight c0 c1 c2 c3 c4 c5 c6 c7 =>
    c0.words ++ c1.words ++ c2.words ++ c3.words ++ c4.words ++ c5.words ++ c6.words ++ c7.words

/-- The tree holds these contents: its word of every index is the memory's (R43). -/
def RamTree.holds (t : RamTree) (m : Memory) : Prop :=
  ∀ a, a < t.words.length → t.words.getD a (0#16) = Memory.word m a

end Sys2Proof.Machine
end

