-- ==== Sys2Proof/WellFormed.lean ====
section
/-! DEFINITION. What is well formed. A typed operation (`Instr`) always is: its signals are two-valued and its buses
fixed-width, so it cannot raise either error of the block (R202). What can be ill formed is what the host hands over: an
operation's port values, a wiring, and a script. -/

namespace Sys2Proof

/-- An operation as the host hands it over is well formed: one value for each input port, of the port's width (R201),
every signal 0 or 1 (R200). -/
abbrev RawOp.WellFormed (op : RawOp) : Prop :=
  op.ports.map List.length = op.comp.inputs.map Prod.snd ∧ ∀ r ∈ op.ports, ∀ x ∈ r, x < 2

/-- A wiring is well formed when its static check finds nothing wrong. -/
def System.WellFormed (sys : System) : Bool :=
  match sys.check with
  | .ok _ => true
  | .error _ => false

/-- The rows of a script are numbered 0, 1, 2, ... (R75). -/
def Script.numbered (sc : Script) : Bool := sc.rows.map Row.number == List.range sc.rows.length

/-- A row supplies the inputs a wiring declares. -/
def Row.fits (sys : System) (row : Row) : Bool :=
  match sys.checkRow row with
  | .ok _ => true
  | .error _ => false

/-- A script is well formed: its wiring is, its rows are numbered in order, and each supplies every input (R75). -/
def Script.WellFormed (sc : Script) : Bool :=
  sc.system.WellFormed && sc.numbered && sc.rows.all fun r => Row.fits sc.system r

end Sys2Proof
end

