-- ==== Sys2Proof/Safety.lean ====
section
/-! DEFINITION. The terms the claims use: what two states agree on, what one cycle of one instance is, what a safe run
is, and the machine's invariant. -/

namespace Sys2Proof

/-- What an expression needs the value of in the same cycle (R153, R224, R233): a net's name needs the net, with or
without a port; a memory block's output needs what drives its address, and any other instance's output nothing; an
operator and a sub-bus need their parts. -/
inductive DependsOn (sys : System) : Expr → Expr → Prop
  | net {n : Ident} {e : Expr} : sys.inputs.contains n = false → sys.net? n = some e → DependsOn sys (.name n) e
  | netPort {n : Ident} {p : Port} {e : Expr} :
    sys.comp? n = none → sys.net? n = some e → DependsOn sys (.port n p) e
  | address {n : Ident} {p : Port} {c : Comp} {z : RamSize} {e : Expr} :
    sys.comp? n = some c → c.ramSize? = some z → sys.driver? n .address = some e → DependsOn sys (.port n p) e
  | operand {c : Comp} {args : Exprs} {e : Expr} : e ∈ args.toList → DependsOn sys (.op c args) e
  | aluX {l : AluLabel} {x y : Expr} : DependsOn sys (.alu l x y) x
  | aluY {l : AluLabel} {x y : Expr} : DependsOn sys (.alu l x y) y
  | whole {e : Expr} {p q : Nat} : DependsOn sys (.slice e p q) e

/-- A chain of one or more needs leads back to the expression it began with: a combinational loop (R233). -/
def OnLoop (sys : System) (e : Expr) : Prop := Relation.TransGen (DependsOn sys) e e

/-- Some expression of the wiring needs, at once or through others, one that stands on a combinational loop (R233). -/
def HasLoop (sys : System) : Prop :=
  ∃ e ∈ sys.exprs, ∃ e', Relation.ReflTransGen (DependsOn sys) e e' ∧ OnLoop sys e'

end Sys2Proof

namespace Sys2Proof.Machine

/-- k steps from s meet no error and no refusal. -/
def RunsSafely (k : Nat) (s : State) : Prop := ∃ t, Host.Core.run Sys2Proof.core k s = .next t

/-- The two states agree on one instance: on its state as the host may peek at it (R226), for a memory block on the
word of every index. -/
def SameInstance (c : Comp) (n : Ident) (s t : State) : Prop :=
  match c with
  | .latch => t.peekLatch n = s.peekLatch n
  | .bit => t.peekBit n = s.peekBit n
  | .register => t.peekRegister n = s.peekRegister n
  | .ram8 => ∀ a, (t.peekRam .ram8 n).word a = (s.peekRam .ram8 n).word a
  | .ram64 => ∀ a, (t.peekRam .ram64 n).word a = (s.peekRam .ram64 n).word a
  | .ram512 => ∀ a, (t.peekRam .ram512 n).word a = (s.peekRam .ram512 n).word a
  | .ram4k => ∀ a, (t.peekRam .ram4k n).word a = (s.peekRam .ram4k n).word a
  | .ram16k => ∀ a, (t.peekRam .ram16k n).word a = (s.peekRam .ram16k n).word a
  | .pc => t.peekPc n = s.peekPc n
  | .nand | .not | .and | .or | .xor | .mux | .dmux | .not16 | .and16 | .or16 | .mux16 | .or8way | .mux4way16
  | .mux8way16 | .dmux4way | .dmux8way | .halfadd | .fulladd | .add16 | .inc16 | .alu => True

/-- An instance as constructed: every cell 0 (R32). -/
def ZeroInstance (c : Comp) (n : Ident) (s : State) : Prop := SameInstance c n State.reset s

/-- The frame of one cycle of instance n of component c: every other instance of every component, every word of every
other memory block, the wiring and the host's queue are as before. -/
def StepsOnly (c : Comp) (n : Ident) (s t : State) : Prop :=
  (∀ c' n', ¬(c' = c ∧ n' = n) → SameInstance c' n' s t) ∧ t.system = s.system ∧ t.pending = s.pending

/-- One cycle of memory block n of size z completed (R46, R47, R50): it returned the old word of index u, that word
became the input where load is 1, every other word and everything else is as before. -/
def RamStepped (z : RamSize) (n : Ident) (inp : Bus16) (u : Nat) (load : Signal) (s : State)
    (o : Host.Outcome State Fault Refusal) : Prop :=
  ∃ t, o = .next t ∧
    t.outputs = [⟨some n, .out, Bus.signals ((s.peekRam z n).word u)⟩] ∧
    (∀ a, (t.peekRam z n).word a = if load = true ∧ a = u then inp else (s.peekRam z n).word a) ∧
    StepsOnly z.comp n s t

/-- One cycle of PC n completed (R190): it returned the old value, its next value is `next`, and everything else is as
before. -/
def PcStepped (n : Ident) (next : Bus16) (s : State) (o : Host.Outcome State Fault Refusal) : Prop :=
  ∃ t, o = .next t ∧
    t.outputs = [⟨some n, .out, Bus.signals (s.peekPc n)⟩] ∧
    t.peekPc n = next ∧
    StepsOnly .pc n s t

/-- What a sequence of reads and writes leaves in the word of address `a` (R49): the input of the latest write to it,
or `old` if there is none. -/
def latestWrite {k : Nat} (ops : List (Bus16 × Bus k × Signal)) (a : Bus k) (old : Bus16) : Bus16 :=
  match ops.reverse.find? fun o => o.2.2 && o.2.1 == a with
  | some o => o.1
  | none => old

/-- The outputs a step returned, where it answers a next state. -/
def returned : Host.Outcome State Fault Refusal → Option (List Output)
  | .next t => some t.outputs
  | .fault _ => none
  | .refused _ => none

/-- The machine's invariant: every store canonical, every memory block within its address space, and the wiring, if
the host has given one, well formed. -/
def Inv (s : State) : Prop := s.wf ∧ s.system.WellFormed = true

end Sys2Proof.Machine
end

