-- ==== Sys2Proof/Certificates/Slice0/Obligations.lean ====
section
/-! DEFINITION. The statements about the block, for the provers. Those marked as the model's choice rest on a log entry or
on what the spec marks as its own inference. That a step does the oldest request of the host's queue `pending` is the
model's choice in every statement that names the queue (log entries 1 and 4). -/

open Sys2Proof Sys2Proof.Machine

/-! ### The views of a bus -/

/-- R8: the unsigned value is the weighted sum of the positions, the two's-complement value takes 2^w off where
position 0 is 1, and bus_w(n) is the bus whose unsigned value is n mod 2^w. -/
def Obligations.BusValues : Prop :=
  (∀ (w : Nat) (b : Bus w),
    Bus.u b = ((List.range w).map fun i => Signal.raw (Bus.pos b i) * 2 ^ (w - 1 - i)).sum ∧
    Bus.s b = (Bus.u b : Int) - Signal.raw (Bus.pos b 0) * 2 ^ w) ∧
  ∀ (w : Nat) (n : Int), (Bus.u (Bus.ofInteger w n) : Int) = n % 2 ^ w

/-! ### The combinational gates: each operation completes, returns these outputs, and changes nothing else -/

/-- R100. -/
def Obligations.NandCompletes : Prop :=
  ∀ (a b : Signal) (s : State),
    exec (.nand a b) s = .next (s.give none [(.out, [if a = true ∧ b = true then false else true])])

/-- R101. -/
def Obligations.NotCompletes : Prop :=
  ∀ (a : Signal) (s : State), exec (.not a) s = .next (s.give none [(.out, [if a = true then false else true])])

/-- AND, OR and XOR by the tables that are the spec's own reading of the source's names (93_implementation_defined.md
GK1 to GK3; log entry 14). -/
def Obligations.AndOrXorComplete : Prop :=
  ∀ (a b : Signal) (s : State),
    exec (.and a b) s = .next (s.give none [(.out, [if a = true ∧ b = true then true else false])]) ∧
    exec (.or a b) s = .next (s.give none [(.out, [if a = true ∨ b = true then true else false])]) ∧
    exec (.xor a b) s = .next (s.give none [(.out, [if a = b then false else true])])

/-- R105. -/
def Obligations.MuxCompletes : Prop :=
  ∀ (a b sel : Signal) (s : State),
    exec (.mux a b sel) s = .next (s.give none [(.out, [if sel = false then a else b])])

/-- DMUX by decision D4, the spec's own choice (log entry 13). -/
def Obligations.DmuxCompletes : Prop :=
  ∀ (inp sel : Signal) (s : State),
    exec (.dmux inp sel) s =
      .next (s.give none [(.a, [if sel = false then inp else false]), (.b, [if sel = true then inp else false])])

/-- NOT at each of the 16 positions (R107), and the two values that the spec derives from R107 and R8 as its corner
cases. -/
def Obligations.Not16Completes : Prop :=
  ∀ (a : Bus16) (s : State), ∃ out : Bus16,
    exec (.not16 a) s = .next (s.give none [(.out, Bus.signals out)]) ∧
    (∀ i, i < 16 → Bus.pos out i = if Bus.pos a i = true then false else true) ∧
    Bus.u out = 65535 - Bus.u a ∧ Bus.s out = -Bus.s a - 1

/-- AND16 and OR16 position by position, over the tables of AND and OR that are the spec's own reading of the names
(93_implementation_defined.md GK1, GK2; log entry 14). -/
def Obligations.And16Or16Complete : Prop :=
  ∀ (a b : Bus16) (s : State), ∃ conj disj : Bus16,
    exec (.and16 a b) s = .next (s.give none [(.out, Bus.signals conj)]) ∧
    exec (.or16 a b) s = .next (s.give none [(.out, Bus.signals disj)]) ∧
    ∀ i, i < 16 →
      Bus.pos conj i = (if Bus.pos a i = true ∧ Bus.pos b i = true then true else false) ∧
      Bus.pos disj i = (if Bus.pos a i = true ∨ Bus.pos b i = true then true else false)

/-- R110. -/
def Obligations.Mux16Completes : Prop :=
  ∀ (a b : Bus16) (sel : Signal) (s : State),
    exec (.mux16 a b sel) s = .next (s.give none [(.out, Bus.signals (if sel = false then a else b))])

/-- R111. -/
def Obligations.Or8wayCompletes : Prop :=
  ∀ (inp : Bus 8) (s : State), ∃ out : Signal,
    exec (.or8way inp) s = .next (s.give none [(.out, [out])]) ∧
    (out = true ↔ ∃ i, i < 8 ∧ Bus.pos inp i = true)

/-- R112 and R113: the candidate of index u(sel). -/
def Obligations.MultiwayMuxComplete : Prop :=
  (∀ (in0 in1 in2 in3 : Bus16) (sel : Bus 2) (s : State),
    exec (.mux4way16 in0 in1 in2 in3 sel) s =
      .next (s.give none [(.out, Bus.signals ([in0, in1, in2, in3].getD (Bus.u sel) (0#16)))])) ∧
  ∀ (in0 in1 in2 in3 in4 in5 in6 in7 : Bus16) (sel : Bus 3) (s : State),
    exec (.mux8way16 in0 in1 in2 in3 in4 in5 in6 in7 sel) s =
      .next (s.give none
        [(.out, Bus.signals ([in0, in1, in2, in3, in4, in5, in6, in7].getD (Bus.u sel) (0#16)))])

/-- R114 and R115: the input on the output of index u(sel), every other output 0. -/
def Obligations.MultiwayDemuxComplete : Prop :=
  (∀ (inp : Signal) (sel : Bus 2) (s : State),
    exec (.dmux4way inp sel) s =
      .next (s.give none
        ((List.zip [Port.out0, .out1, .out2, .out3] (List.range 4)).map fun o =>
          (o.1, [if o.2 = Bus.u sel then inp else false])))) ∧
  ∀ (inp : Signal) (sel : Bus 3) (s : State),
    exec (.dmux8way inp sel) s =
      .next (s.give none
        ((List.zip [Port.out0, .out1, .out2, .out3, .out4, .out5, .out6, .out7] (List.range 8)).map fun o =>
          (o.1, [if o.2 = Bus.u sel then inp else false])))

/-! ### The arithmetic unit -/

/-- R130 and R131: the outputs are the two-bit sum of the inputs. -/
def Obligations.BitAddersComplete : Prop :=
  (∀ (a b : Signal) (s : State), ∃ sum carry : Signal,
    exec (.halfadd a b) s = .next (s.give none [(.sum, [sum]), (.carry, [carry])]) ∧
    2 * Signal.raw carry + Signal.raw sum = Signal.raw a + Signal.raw b ∧
    sum = (if a = b then false else true) ∧ carry = (if a = true ∧ b = true then true else false)) ∧
  ∀ (a b c : Signal) (s : State), ∃ sum carry : Signal,
    exec (.fulladd a b c) s = .next (s.give none [(.sum, [sum]), (.carry, [carry])]) ∧
    2 * Signal.raw carry + Signal.raw sum = Signal.raw a + Signal.raw b + Signal.raw c

/-- R132 and R133: addition and increment modulo 2^16, and no output but the sum. -/
def Obligations.AddersComplete : Prop :=
  (∀ (a b : Bus16) (s : State), ∃ out : Bus16,
    exec (.add16 a b) s = .next (s.give none [(.out, Bus.signals out)]) ∧
    Bus.u out = (Bus.u a + Bus.u b) % 2 ^ 16) ∧
  ∀ (a : Bus16) (s : State), ∃ out : Bus16,
    exec (.inc16 a) s = .next (s.give none [(.out, Bus.signals out)]) ∧
    Bus.u out = (Bus.u a + 1) % 2 ^ 16

/-- The signed reading of the adder that the spec derives in 41_arithmetic.md section 3: the signed sum, brought into
range by 65536. -/
def Obligations.AdderSignedWrap : Prop :=
  ∀ (a b : Bus16) (s : State), ∃ out : Bus16,
    exec (.add16 a b) s = .next (s.give none [(.out, Bus.signals out)]) ∧
    Bus.s out =
      (if Bus.s a + Bus.s b > 32767 then Bus.s a + Bus.s b - 65536
        else if Bus.s a + Bus.s b < -32768 then Bus.s a + Bus.s b + 65536
        else Bus.s a + Bus.s b)

/-- R134 and R135, over the block's word arithmetic. -/
def Obligations.AluCompletes : Prop :=
  ∀ (x y : Bus16) (zx nx zy ny f no : Signal) (s : State),
    let x1 : Bus16 := if zx = true then 0#16 else x
    let x2 : Bus16 := if nx = true then ~~~x1 else x1
    let y1 : Bus16 := if zy = true then 0#16 else y
    let y2 : Bus16 := if ny = true then ~~~y1 else y1
    let r : Bus16 := if f = true then x2 + y2 else x2 &&& y2
    let out : Bus16 := if no = true then ~~~r else r
    exec (.alu x y zx nx zy ny f no) s =
      .next (s.give none
        [(.out, Bus.signals out), (.zr, [decide (Bus.u out = 0)]), (.ng, [decide (Bus.s out < 0)])])

/-- The 18 control words that the spec's table of 30_encoding.md section 4 names (labels from general knowledge, GK8;
log entry 24) compute the functions they are named for. -/
def Obligations.AluNamedFunctions : Prop :=
  ∀ (x y : Bus16) (s : State),
    let gives := fun (l : AluLabel) (out : Bus16) =>
      exec (aluUnder l.control x y) s =
        .next (s.give none
          [(.out, Bus.signals out), (.zr, [decide (Bus.u out = 0)]), (.ng, [decide (Bus.s out < 0)])])
    gives .zero 0 ∧ gives .one 1 ∧ gives .minusOne (-1) ∧ gives .x x ∧ gives .y y ∧ gives .notX (~~~x) ∧
    gives .notY (~~~y) ∧ gives .negX (-x) ∧ gives .negY (-y) ∧ gives .incX (x + 1) ∧ gives .incY (y + 1) ∧
    gives .decX (x - 1) ∧ gives .decY (y - 1) ∧ gives .addXY (x + y) ∧ gives .subXY (x - y) ∧ gives .subYX (y - x) ∧
    gives .andXY (x &&& y) ∧ gives .orXY (x ||| y)

/-! ### The storage cells, with their frames -/

/-- R150. -/
def Obligations.LatchCompletes : Prop :=
  ∀ (n : Ident) (inp : Signal) (s : State), ∃ t,
    exec (.latch n inp) s = .next t ∧
    t.outputs = [⟨some n, .out, [s.peekLatch n]⟩] ∧
    t.peekLatch n = inp ∧
    StepsOnly .latch n s t

/-- R151. -/
def Obligations.BitCompletes : Prop :=
  ∀ (n : Ident) (inp load : Signal) (s : State), ∃ t,
    exec (.bit n inp load) s = .next t ∧
    t.outputs = [⟨some n, .out, [s.peekBit n]⟩] ∧
    t.peekBit n = (if load = true then inp else s.peekBit n) ∧
    StepsOnly .bit n s t

/-- R152. -/
def Obligations.RegisterCompletes : Prop :=
  ∀ (n : Ident) (inp : Bus16) (load : Signal) (s : State), ∃ t,
    exec (.register n inp load) s = .next t ∧
    t.outputs = [⟨some n, .out, Bus.signals (s.peekRegister n)⟩] ∧
    t.peekRegister n = (if load = true then inp else s.peekRegister n) ∧
    StepsOnly .register n s t

/-- R46, R47 and R50, for the five memory blocks: the word of index u(address) is read before the edge, that word alone
is written, whole, and only with load = 1. -/
def Obligations.RamsComplete : Prop :=
  ∀ (n : Ident) (inp : Bus16) (load : Signal) (s : State),
    (∀ a : Bus 3, RamStepped .ram8 n inp (Bus.u a) load s (exec (.ram8 n inp a load) s)) ∧
    (∀ a : Bus 6, RamStepped .ram64 n inp (Bus.u a) load s (exec (.ram64 n inp a load) s)) ∧
    (∀ a : Bus 9, RamStepped .ram512 n inp (Bus.u a) load s (exec (.ram512 n inp a load) s)) ∧
    (∀ a : Bus 12, RamStepped .ram4k n inp (Bus.u a) load s (exec (.ram4k n inp a load) s)) ∧
    ∀ a : Bus 14, RamStepped .ram16k n inp (Bus.u a) load s (exec (.ram16k n inp a load) s)

/-- The two forms of the memory-block step agree, as 43_memory_blocks.md derives: a tree with the levels of its size
that holds contents m returns what the flat form returns and then holds the contents the flat form leaves. -/
def Obligations.RamTreeRefinesFlat : Prop :=
  ∀ (z : RamSize) (t : RamTree) (m : Memory) (inp : Bus16) (address : Bus z.addressWidth) (load : Signal),
    t.hasLevels (ramLevels z) = true → t.holds m →
    (t.step inp (Bus.signals address) load).1 = (ramStep m inp address load).1 ∧
    (t.step inp (Bus.signals address) load).2.hasLevels (ramLevels z) = true ∧
    (t.step inp (Bus.signals address) load).2.holds (ramStep m inp address load).2

/-- R26 and R40: the tree of a memory block as constructed has the levels of its size and 2^k words; R32 (10_state.md
section 4): it holds the all-zero contents. -/
def Obligations.RamTreeConstructed : Prop :=
  ∀ z : RamSize,
    (RamTree.zeros (ramLevels z)).hasLevels (ramLevels z) = true ∧
    (RamTree.zeros (ramLevels z)).words.length = 2 ^ z.addressWidth ∧
    (RamTree.zeros (ramLevels z)).holds []

/-- The reads and writes of one memory block in any order, as 20_memory.md derives: each word holds the latest value
written to it, or what it held before. -/
def Obligations.RamHoldsLatestWrite : Prop :=
  ∀ (z : RamSize) (n : Ident) (ops : List (Bus16 × Bus z.addressWidth × Signal)) (s : State), ∃ t,
    runAll (ops.map fun o => z.operation n o.1 o.2.1 o.2.2) s [] = .next t ∧
    ∀ a : Bus z.addressWidth,
      (t.peekRam z n).word (Bus.u a) = latestWrite ops a ((s.peekRam z n).word (Bus.u a))

/-! ### The program counter -/

/-- R191, R192, R193 and R194, each completing with its next value; R221: nothing but that PC changes. -/
def Obligations.PcOperationsComplete : Prop :=
  ∀ (n : Ident) (inp : Bus16) (s : State),
    (∀ increment load, PcStepped n (0#16) s (exec (.pcReset n inp increment load) s)) ∧
    (∀ increment, PcStepped n inp s (exec (.pcLoad n inp increment) s)) ∧
    PcStepped n (Bus.ofNum 16 (Bus.u (s.peekPc n) + 1)) s (exec (.pcInc n inp) s) ∧
    PcStepped n (s.peekPc n) s (exec (.pcHold n inp) s)

/-- The three controls choose the next value by priority (R190, as R191 to R194 state it), from the values on the PC's
ports to its state. That those values are read in the order of R61 and as lists is decision D5 and the model's choice
(log entry 6). -/
def Obligations.PcPriority : Prop :=
  ∀ (n : Ident) (inp : Bus16) (increment load reset : Signal) (s : State), ∃ i,
    decode ⟨.pc, n, [Bus.raw inp, [Signal.raw increment], [Signal.raw load], [Signal.raw reset]]⟩ = .ok i ∧
    PcStepped n
      (if reset = true then 0#16
        else if load = true then inp
        else if increment = true then Bus.ofNum 16 (Bus.u (s.peekPc n) + 1)
        else s.peekPc n) s (exec i s)

/-- Every value of the 3-bit PC control word selects one row, with reset at weight 4, increment at weight 2 and load at
weight 1 (R64), as R70 derives. That a table word stands for an operation of PC 0 with inp 0x0000 is the model's reading
(log entry 7). -/
def Obligations.PcControlWords : Prop :=
  ∀ w, w < 8 →
    decodeTableWord 8 w =
      some (if w / 4 = 1 then .pcReset 0 (0#16) (w / 2 % 2 == 1) (w % 2 == 1)
        else if w % 2 = 1 then .pcLoad 0 (0#16) (w / 2 == 1)
        else if w = 2 then .pcInc 0 (0#16)
        else .pcHold 0 (0#16))

/-! ### Encoding, and the two errors of the boundary -/

/-- Decoding the port values of an operation gives the operation back, whatever its operands. -/
def Obligations.DecodeEncode : Prop := ∀ i : Instr, decode (encode i) = .ok i

/-- Port values that decode are those the encoder writes: no signal on any port is dropped. -/
def Obligations.EncodeDecode : Prop :=
  ∀ (op : RawOp) (i : Instr), decode op = .ok i →
    (encode i).comp = op.comp ∧ (encode i).ports = op.ports ∧
    (op.comp.stateful = true → (encode i).inst = op.inst)

/-- Words written out from the formats of R61. The order of a component's port values is R61's, which is the spec's own
(decision D5), and their form as lists, position 0 first, is the model's choice (log entry 6). -/
def Obligations.SampleWords : Prop :=
  decode ⟨.nand, 0, [[1], [0]]⟩ = .ok (.nand true false) ∧
  decode ⟨.mux4way16, 0, [List.replicate 16 0, List.replicate 16 1, List.replicate 16 0, List.replicate 16 0, [0, 1]]⟩ =
    .ok (.mux4way16 0x0000#16 0xFFFF#16 0x0000#16 0x0000#16 0b01#2) ∧
  decode ⟨.ram8, 5, [[1, 0, 1, 1, 1, 1, 1, 0, 1, 1, 1, 0, 1, 1, 1, 1], [0, 1, 1], [1]]⟩ =
    .ok (.ram8 5 0xBEEF#16 0b011#3 true) ∧
  decode ⟨.pc, 2, [[0, 0, 0, 0, 0, 0, 0, 1, 0, 0, 0, 0, 0, 0, 0, 0], [1], [1], [0]]⟩ =
    .ok (.pcLoad 2 0x0100#16 true)

/-- An operation is accepted exactly if every input is supplied (R222), every port value has its port's width (R201) and
every signal is 0 or 1 (R200); no control value is refused (R204). That a wrong number of values is refused is the model's
choice (log entry 6), and so is that a bit port has width 1 (log entry 30). -/
def Obligations.DecodeAcceptsExactlyWellFormed : Prop :=
  ∀ op : RawOp, (∃ i, decode op = .ok i) ↔ op.WellFormed

/-- With every input supplied and some bus of the wrong width, too few positions or too many, the error is
WidthMismatchError (R201), names a port that has the wrong width, and gives that port's width and the supplied one; the
step answers it in place of a next state. That wrong signals beside it do not matter is decision D8 (R205, log entry 28),
the payload decision D7 (log entries 9 and 10), and that a bit port counts with width 1 the model's choice (log entry
30); so is that the error comes before the refusal to step an instance of the wired system (log entry 34). -/
def Obligations.WidthMismatchComesFirst : Prop :=
  ∀ op : RawOp, op.ports.length = op.comp.inputs.length →
    op.ports.map List.length ≠ op.comp.inputs.map Prod.snd →
    ∃ (i : Nat) (p : Port) (e : Nat) (v : RawBus), op.comp.inputs[i]? = some (p, e) ∧ op.ports[i]? = some v ∧ v.length ≠ e ∧
      decode op = .error (.widthMismatchError op.comp p e v.length) ∧
      ∀ (s : State) (rest : List HostInput), s.pending = .operation op :: rest →
        step s = .refused (.portError (.widthMismatchError op.comp p e v.length))

/-- With every width right and some signal neither 0 nor 1, on a data or a control port, ignored or not, the error
is InvalidSignalError (R200) and names a port that carries such a signal; the step answers it in place of a next state.
The payload is decision D7, which of several ports is named is left open (log entry 10), and that the step answers a
refusal is the model's form (log entry 9); that the error comes before the refusal to step an instance of the wired
system is the model's choice (log entry 34). -/
def Obligations.InvalidSignalIsReported : Prop :=
  ∀ op : RawOp, op.ports.map List.length = op.comp.inputs.map Prod.snd →
    (∃ v ∈ op.ports, ∃ x ∈ v, ¬ x < 2) →
    ∃ (i : Nat) (p : Port) (e : Nat) (v : RawBus) (x : Nat), op.comp.inputs[i]? = some (p, e) ∧ op.ports[i]? = some v ∧ x ∈ v ∧ ¬ x < 2 ∧
      decode op = .error (.invalidSignalError op.comp p) ∧
      ∀ (s : State) (rest : List HostInput), s.pending = .operation op :: rest →
        step s = .refused (.portError (.invalidSignalError op.comp p))

/-- An operation that does not decode is refused under the name of its error. The refusal's form is the model's (log
entry 9), and so are the error for a wrong number of values (log entry 6) and that the error comes before the refusal to
step an instance of the wired system (log entry 34). -/
def Obligations.ErrorIsReportedToHost : Prop :=
  ∀ (s : State) (op : RawOp) (rest : List HostInput) (e : PortError),
    s.pending = .operation op :: rest → decode op = .error e → step s = .refused (.portError e)

/-! ### All operations -/

/-- R228: every operation of the table completes from every state. -/
def Obligations.EveryOperationCompletes : Prop := ∀ (i : Instr) (s : State), ∃ t, exec i s = .next t

/-- R11 and R21: a combinational operation changes no state and returns the same outputs from every state. -/
def Obligations.CombinationalPurity : Prop :=
  ∀ i : Instr, i.comp.stateful = false → ∃ outs, ∀ s : State, exec i s = .next { s with outputs := outs }

/-- R22: an operation of a stateful component changes its own instance only. -/
def Obligations.StateIsOwned : Prop :=
  ∀ (i : Instr) (s t : State), i.comp.stateful = true → exec i s = .next t → StepsOnly i.comp i.inst s t

/-- R153: the outputs of LATCH, BIT, REGISTER and PC do not depend on the inputs of the cycle, and a memory block's
depend on its address only. -/
def Obligations.OutputsIgnoreOtherInputs : Prop :=
  (∀ (i j : Instr) (s : State), i.comp.stateful = true → i.comp.ramSize? = none → i.comp = j.comp → i.inst = j.inst →
    returned (exec i s) = returned (exec j s)) ∧
  ∀ (z : RamSize) (n : Ident) (address : Bus z.addressWidth) (inp inp' : Bus16) (load load' : Signal) (s : State),
    returned (exec (z.operation n inp address load) s) = returned (exec (z.operation n inp' address load') s)

/-- R230: a value loaded in one cycle is not what the component returns in that cycle, which is the old value, and is
what it returns in the next, whatever that cycle's inputs. -/
def Obligations.OneCycleWriteLatency : Prop :=
  (∀ (n : Ident) (v x l : Signal) (s : State), ∃ t, exec (.bit n v true) s = .next t ∧
    t.outputs = [⟨some n, .out, [s.peekBit n]⟩] ∧
    returned (exec (.bit n x l) t) = some [⟨some n, .out, [v]⟩]) ∧
  (∀ (n : Ident) (v x : Bus16) (l : Signal) (s : State), ∃ t, exec (.register n v true) s = .next t ∧
    t.outputs = [⟨some n, .out, Bus.signals (s.peekRegister n)⟩] ∧
    returned (exec (.register n x l) t) = some [⟨some n, .out, Bus.signals v⟩]) ∧
  (∀ (z : RamSize) (n : Ident) (address : Bus z.addressWidth) (v x : Bus16) (l : Signal) (s : State), ∃ t,
    exec (z.operation n v address true) s = .next t ∧
    t.outputs = [⟨some n, .out, Bus.signals ((s.peekRam z n).word (Bus.u address))⟩] ∧
    returned (exec (z.operation n x address l) t) = some [⟨some n, .out, Bus.signals v⟩]) ∧
  ∀ (n : Ident) (v x : Bus16) (i i' l' r' : Signal) (s : State), ∃ t, exec (.pcLoad n v i) s = .next t ∧
    t.outputs = [⟨some n, .out, Bus.signals (s.peekPc n)⟩] ∧
    returned (exec (pcOperation n x i' l' r') t) = some [⟨some n, .out, Bus.signals v⟩]

/-! ### Reset, construction and the step -/

/-- R32: at construction every cell of every instance holds 0, and it changes by the evaluation of its own instance
only: an operation of any other component or instance leaves it. -/
def Obligations.CellsStartZeroAndPersist : Prop :=
  (∀ n : Ident, State.reset.peekLatch n = false ∧ State.reset.peekBit n = false ∧
    State.reset.peekRegister n = 0x0000#16 ∧ State.reset.peekPc n = 0x0000#16 ∧
    ∀ z a, (State.reset.peekRam z n).word a = 0x0000#16) ∧
  ∀ (i : Instr) (s t : State) (c : Comp) (n : Ident), exec i s = .next t → ¬(i.comp = c ∧ i.inst = n) →
    SameInstance c n s t

/-- Log entry 21: constructing a well-formed system makes its instances anew, all zero, takes its wiring, and leaves
every other instance as it was. -/
def Obligations.ConstructionMakesAnew : Prop :=
  ∀ (s : State) (sys : System) (rest : List HostInput),
    s.pending = .construct sys :: rest → sys.WellFormed = true → ∃ t, step s = .next t ∧
      t.system = sys ∧ t.pending = rest ∧ t.outputs = [] ∧
      (∀ d ∈ sys.insts, ZeroInstance d.comp d.name t) ∧
      ∀ c n, (⟨n, c⟩ : InstDecl) ∉ sys.insts → SameInstance c n s t

/-- A step runs the decoded operation: the host's oldest request, if it decodes to i and names no instance of the
system, is done by exec on the state without that request. That a step does the oldest request of a queue is the model's
choice (log entries 1 and 4), and so is that an instance of the system is excepted (log entry 17). -/
def Obligations.StepRunsDecodedOperation : Prop :=
  ∀ (s : State) (op : RawOp) (rest : List HostInput) (i : Instr),
    s.pending = .operation op :: rest → decode op = .ok i → (⟨i.inst, i.comp⟩ : InstDecl) ∉ s.system.insts →
    step s = exec i { s with pending := rest }

/-- What withFetchWord places is what the next step runs. The placing, with no system wired, is the model's choice
(log entry 4), and the reading of the word too (log entry 7). -/
def Obligations.FetchWordRunsNext : Prop :=
  ∀ (s : State) (nbits w : Nat) (i : Instr), decodeTableWord nbits w = some i →
    step (s.withFetchWord nbits w) = exec i { s with system := System.empty }

/-- R216: where the host takes no step, nothing changes. -/
def Obligations.NoRequestNoChange : Prop := ∀ s : State, s.pending = [] → step s = .next s

/-- The invariant holds at reset. That the wiring is well formed there rests on the empty System of reset, the model's
choice (log entry 3). -/
def Obligations.ResetInvariant : Prop := Inv State.reset

/-- Every step keeps every store canonical, every memory block within its address space, and the wiring well
formed. -/
def Obligations.StepKeepsInvariant : Prop := ∀ s t : State, Inv s → step s = .next t → Inv t

/-! ### The cycle of a system -/

/-- A cycle steps every instance of the system exactly once (R223): a completed cycle has run a list of operations, each
once and in order, that names the instances of the system one by one, and what it leaves is what that run leaves, the
values of the nets listed after the outputs. That the operations run one after another in the order of the declarations,
and that the nets are listed after the outputs, is the model's choice (log entry 20, DEDUCED): the spec fixes no such
order, and StepOrderIsIrrelevant says that it shows in the listing of the outputs alone. -/
def Obligations.CycleStepsEachInstanceOnce : Prop :=
  ∀ (s t : State) (row : Row), s.system.WellFormed = true → runCycle row s = .next t → ∃ is nets u,
    evaluateCycle s row = .ok (is, nets) ∧
    is.map (fun i => (⟨i.inst, i.comp⟩ : InstDecl)) = s.system.insts ∧ s.system.insts.Nodup ∧
    runAll is s [] = .next u ∧ t = { u with outputs := u.outputs ++ nets }

/-- The simultaneous capture of 42_sequential.md section 3: after a cycle each instance of the system is as its own step
from the state before the edge leaves it, the outputs of that step are among the cycle's, and no other instance
changed. -/
def Obligations.CycleIsSimultaneous : Prop :=
  ∀ (s t : State) (row : Row), s.system.WellFormed = true → runCycle row s = .next t → ∃ is nets,
    evaluateCycle s row = .ok (is, nets) ∧
    (∀ i ∈ is, ∃ t', exec i s = .next t' ∧ SameInstance i.comp i.inst t' t ∧ ∀ o ∈ t'.outputs, o ∈ t.outputs) ∧
    (∀ c n, (⟨n, c⟩ : InstDecl) ∉ s.system.insts → SameInstance c n s t) ∧
    t.system = s.system ∧ t.pending = s.pending

/-- The order in which distinct instances are stepped within a cycle is of no effect on the state the cycle leaves, nor
on what was returned but for the order of its listing, as 42_sequential.md section 3 derives. -/
def Obligations.StepOrderIsIrrelevant : Prop :=
  ∀ (s t t' : State) (is is' : List Instr), s.wf → is.Perm is' →
    (∀ i ∈ is, i.comp.stateful = true) →
    is.Pairwise (fun i j => ¬(i.comp = j.comp ∧ i.inst = j.inst)) →
    runAll is s [] = .next t → runAll is' s [] = .next t' →
    { t with outputs := [] } = { t' with outputs := [] } ∧ t.outputs.Perm t'.outputs

/-- Decision D7 (log entry 9): a cycle in which some instance's evaluation raises an error answers no next state. -/
def Obligations.FailedCycleStepsNothing : Prop :=
  ∀ (s : State) (row : Row) (d : InstDecl) (es : List EvalError),
    d ∈ s.system.insts → instanceOp s row d = .error es → ∀ t, runCycle row s ≠ .next t

/-- A well-formed wiring with a row that fits it (R75) is never refused, for a loop (decision D16, log entry 18) or
otherwise, but for a sub-bus beyond the end of its bus, which is the model's choice (log entry 19); a cycle of it either
completes or fails with errors its components raised (decision D7, log entry 9). -/
def Obligations.WellFormedCycleHasMeaning : Prop :=
  ∀ (s : State) (row : Row), s.system.WellFormed = true → Row.fits s.system row = true →
    (∃ t, runCycle row s = .next t) ∨
    (∃ es, es ≠ [] ∧ runCycle row s = .fault (.cycleFailed es)) ∨
    ∃ q w, runCycle row s = .refused (.scriptError (.sliceOutOfRange q w))

/-- Decision D16 (log entry 18): a wiring with a combinational loop, through names, ports, operators, sub-buses, any
number of nets or a memory block's own address, has no meaning. -/
def Obligations.DependencyLoopRefused : Prop := ∀ sys : System, HasLoop sys → sys.WellFormed = false

/-- Decision D18 (log entry 17): an instance of the system is not stepped outside its cycle. -/
def Obligations.WiredInstanceStepsInCycleOnly : Prop :=
  ∀ (s : State) (op : RawOp) (rest : List HostInput) (i : Instr),
    s.pending = .operation op :: rest → decode op = .ok i → i.comp.stateful = true →
    (⟨i.inst, i.comp⟩ : InstDecl) ∈ s.system.insts →
    step s = .refused (.steppedOutsideCycle i.comp i.inst)

/-- Two registers in a chain, each loading on every cycle, shift: the second takes the first's value from before the
edge (R154), as in program P4 of 95_test_vectors.md. Both old words are returned; that they are listed in the order of the
declarations is the model's choice (log entry 20), since the spec fixes no such order. -/
def Obligations.ShiftRegisterCycle : Prop :=
  ∀ (s : State) (v : Bus16),
    s.system =
      { insts := [⟨0, .register⟩, ⟨1, .register⟩], nets := [], inputs := [2],
        drives := [⟨0, [(.inp, .name 2), (.load, .lit [true])]⟩,
          ⟨1, [(.inp, .port 0 .out), (.load, .lit [true])]⟩] } →
    ∃ t, runCycle ⟨0, [(2, Bus.raw v)]⟩ s = .next t ∧
      t.peekRegister 0 = v ∧ t.peekRegister 1 = s.peekRegister 0 ∧
      t.outputs = [⟨some 0, .out, Bus.signals (s.peekRegister 0)⟩, ⟨some 1, .out, Bus.signals (s.peekRegister 1)⟩]

/-- Decision D16 (log entry 18): a wiring is refused as a combinational loop only if it has one. -/
def Obligations.LoopRefusalHasLoop : Prop := ∀ sys : System, sys.check = .error .combinationalLoop → HasLoop sys

/-- A wiring without meaning is refused by name where it is constructed and where a cycle of it is asked for, with a loop
(R233, decision D16, log entry 18) or another fault of its script, and so is a row that does not fit its wiring (R75); the
refusal's form and the checks are the model's choice (log entries 9 and 19), and so is that they come before a component's
error (log entry 34). -/
def Obligations.IllFormedWiringRefused : Prop :=
  (∀ (s : State) (sys : System) (rest : List HostInput),
    s.pending = .construct sys :: rest → sys.WellFormed = false → ∃ e, step s = .refused (.scriptError e)) ∧
  (∀ (s : State) (row : Row) (rest : List HostInput),
    s.pending = .cycle row :: rest → s.system.WellFormed = false → ∃ e, step s = .refused (.scriptError e)) ∧
  ∀ (s : State) (row : Row) (rest : List HostInput),
    s.pending = .cycle row :: rest → Row.fits s.system row = false → ∃ e, step s = .refused (.scriptError e)

/-- One error per evaluation in a cycle (R205, decision D8): an instance whose inputs all have values raises the one error
that decoding them gives, and a failed cycle reports it; what the readers of a memory block's output got in its place is
not reported beside the block's own error. That a failed cycle lists errors at all is decision D7 and the model's choice
(log entries 9 and 11). -/
def Obligations.FailedCycleReportsEachInstance : Prop :=
  (∀ (s : State) (row : Row) (d : InstDecl) (vs : List RawBus) (e : PortError) (reported : List PortError),
    d ∈ s.system.insts → instanceInputs s row d = vs.map .ok → decode ⟨d.comp, d.name, vs⟩ = .error e →
    instanceOp s row d = .error [.step d.name e] ∧
    (runCycle row s = .fault (.cycleFailed reported) → e ∈ reported)) ∧
  ∀ (n : Ident) (e x : PortError) (es es' : List EvalError), EvalError.step n e ∈ es ++ es' →
    raisedErrors (es ++ .address n x :: es') = raisedErrors (es ++ es')
end

