-- ==== Sys2Proof/Laws/Buses.lean ====
section
/-! SUPPORT. The laws of the bus views: a built bus has the positions it was built from, a bus is its positions, and a
bus written as host values reads back. -/

namespace Sys2Proof

@[simp] theorem Bus.pos_build (w : Nat) (f : Nat → Signal) (i : Nat) :
    Bus.pos (Bus.build w f) i = (decide (i < w) && f i) := by
  induction w generalizing f i with
  | zero => simp [Bus.build, Bus.pos, BitVec.getMsbD]
  | succ w ih =>
    cases i with
    | zero => simp [Bus.build, Bus.pos, BitVec.getMsbD, BitVec.getElem_cons]
    | succ i =>
      have := ih (fun j => f (j + 1)) i
      simp only [Bus.pos, BitVec.getMsbD] at this
      simp only [Bus.build, Bus.pos, BitVec.getMsbD, BitVec.getLsbD_cons, Nat.add_lt_add_iff_right]
      by_cases h : i < w
      · have e : w + 1 - 1 - (i + 1) = w - 1 - i := by omega
        rw [e, if_neg (by omega)]
        simpa [h] using this
      · simp [h]

/-- Two buses with the same positions are the same bus. -/
theorem Bus.ext_pos {w : Nat} {a b : Bus w} (h : ∀ i, i < w → Bus.pos a i = Bus.pos b i) : a = b :=
  BitVec.eq_of_getMsbD_eq h

@[simp] theorem Bus.signals_length {w : Nat} (b : Bus w) : (Bus.signals b).length = w := by simp [Bus.signals]

@[simp] theorem Bus.raw_length {w : Nat} (b : Bus w) : (Bus.raw b).length = w := by simp [Bus.raw, rawOf]

theorem Signal.raw_lt (x : Signal) : Signal.raw x < 2 := by cases x <;> decide

theorem Bus.raw_lt {w : Nat} (b : Bus w) : ∀ x ∈ Bus.raw b, x < 2 := by
  simp only [Bus.raw, rawOf, List.mem_map]
  rintro x ⟨y, -, rfl⟩
  exact Signal.raw_lt y

theorem RawBus.value_append (r : RawBus) (x : Nat) : RawBus.value (r ++ [x]) = 2 * RawBus.value r + x := by
  simp [RawBus.value, List.foldl_append]

/-- The number the first n positions of a bus denote. -/
theorem RawBus.value_take {w : Nat} (b : Bus w) (n : Nat) (hn : n ≤ w) :
    RawBus.value (rawOf ((List.range n).map (Bus.pos b))) = Bus.u b / 2 ^ (w - n) := by
  induction n with
  | zero =>
    have := Nat.div_eq_of_lt b.isLt
    simpa [rawOf, RawBus.value, Bus.u] using this.symm
  | succ n ih =>
    have ih := ih (by omega)
    rw [List.range_succ, List.map_append, rawOf, List.map_append]
    simp only [List.map_cons, List.map_nil]
    rw [RawBus.value_append]
    rw [rawOf] at ih
    rw [ih]
    have e : w - n = (w - (n + 1)) + 1 := by omega
    rw [e, Nat.pow_succ, ← Nat.div_div_eq_div_mul]
    have hbit : Signal.raw (Bus.pos b n) = Bus.u b / 2 ^ (w - (n + 1)) % 2 := by
      have e2 : w - 1 - n = w - (n + 1) := by omega
      simp only [Bus.pos, BitVec.getMsbD, e2, BitVec.getLsbD, Bus.u, Signal.raw, Nat.testBit_eq_decide_div_mod_eq]
      have : n < w := by omega
      rcases Nat.mod_two_eq_zero_or_one (BitVec.toNat b / 2 ^ (w - (n + 1))) with h | h <;> simp [this, h]
    rw [hbit]
    omega

/-- A bus written as host values denotes its unsigned value (R8). -/
@[simp] theorem RawBus.value_raw {w : Nat} (b : Bus w) : RawBus.value (Bus.raw b) = Bus.u b := by
  have := RawBus.value_take b w le_rfl
  simpa [Bus.raw, Bus.signals] using this

/-- A bus is the bus of its unsigned value; with `RawBus.value_raw`, a bus written as host values reads back. -/
@[simp] theorem Bus.ofNum_u {w : Nat} (b : Bus w) : Bus.ofNum w (Bus.u b) = b := by simp [Bus.ofNum, Bus.u]

/-- A signal written as a host value reads back. -/
@[simp] theorem Signal.value_raw (x : Signal) : (RawBus.value [Signal.raw x] == 1) = x := by cases x <;> decide

@[simp] theorem Bus.raw_valid {w : Nat} (b : Bus w) : RawBus.valid (Bus.raw b) = true := by
  simp only [RawBus.valid, List.all_eq_true, decide_eq_true_eq]
  exact Bus.raw_lt b

@[simp] theorem Signal.raw_valid (x : Signal) : RawBus.valid [Signal.raw x] = true := by cases x <;> decide

@[simp] theorem RawBus.valid_one : RawBus.valid [1] = true := rfl

@[simp] theorem RawBus.valid_zero : RawBus.valid [0] = true := rfl

end Sys2Proof
end

