-- ==== Sys2Proof/Laws/Decode.lean ====
section
/-! SUPPORT. When decoding accepts and what it refuses, said once, so that a proof about it need not unfold it. -/

namespace Sys2Proof

theorem namedFailure_eq_none {c : Comp} {l : List ((Port × Nat) × RawBus)} : namedFailure c l = none ↔ l = [] := by
  match l with
  | [] => simp [namedFailure]
  | [a] => simp [namedFailure]
  | a :: b :: r => simp [namedFailure]

/-- The failing port an error names is one of the failing ports, whatever `errorPortOrder` picks. -/
theorem namedFailure_mem {c : Comp} {l : List ((Port × Nat) × RawBus)} {p : (Port × Nat) × RawBus}
    (h : namedFailure c l = some p) : p ∈ l := by
  match l, h with
  | [a], h => simp [namedFailure] at h; simp [h]
  | a :: b :: r, h =>
    simp only [namedFailure, Option.some.injEq] at h
    have lt : Config.errorPortOrder c ((a :: b :: r).map fun x => x.1.1) % (a :: b :: r).length <
        (a :: b :: r).length := Nat.mod_lt _ (by simp)
    rw [List.getD_eq_getElem _ _ lt] at h
    rw [← h]; exact List.getElem_mem _

/-- No width fails exactly when the supplied widths are the ports' widths. -/
theorem zip_widths_eq {l1 : List (Port × Nat)} {l2 : List RawBus} (hl : l2.length = l1.length) :
    (l1.zip l2).filter (fun p => decide (p.2.length ≠ p.1.2)) = [] ↔ l2.map List.length = l1.map Prod.snd := by
  induction l1 generalizing l2 with
  | nil => cases l2 <;> simp_all
  | cons a l ih =>
    cases l2 with
    | nil => simp at hl
    | cons b r =>
      have ih := ih (l2 := r) (by simpa using hl)
      by_cases hw : b.length = a.2
      · simp [hw] at ih ⊢; exact ih
      · simp [hw]

/-- A value that stands beside its port stands at its port's index. -/
theorem RawOp.supplied_index {op : RawOp} {p : (Port × Nat) × RawBus} (h : p ∈ op.supplied) :
    ∃ k : Nat, op.comp.inputs[k]? = some p.1 ∧ op.ports[k]? = some p.2 := by
  obtain ⟨k, hk, e⟩ := List.mem_iff_getElem.mp h
  simp [RawOp.supplied] at hk e
  exact ⟨k, by rw [List.getElem?_eq_getElem (by omega), ← e], by rw [List.getElem?_eq_getElem (by omega), ← e]⟩

/-- Decoding accepts well-formed port values and reads them by `assemble`. -/
theorem decode_of_wellFormed {op : RawOp} (h : op.WellFormed) : decode op = .ok op.assemble := by
  have hl : op.ports.length = op.comp.inputs.length := by simpa using congrArg List.length h.1
  have hw : op.widthFailures = [] := (zip_widths_eq hl).mpr h.1
  have hs : op.signalFailures = [] := by
    simp only [RawOp.signalFailures, List.filter_eq_nil_iff, RawOp.supplied]
    intro x hx
    have := (List.of_mem_zip (a := x.1) (b := x.2) hx).2
    simp [RawBus.valid]
    exact fun y hy => Nat.le_of_lt_succ (h.2 _ this y hy)
  simp [decode, hl, hw, hs, namedFailure]

end Sys2Proof
end

