-- ==== Sys2Proof/Laws/Gates.lean ====
section
/-! SUPPORT. What each gate, adder, flag and register step computes, said once: the composition from NAND equals the
table, the bus operation or the word arithmetic it stands for (R10, R155). -/

namespace Sys2Proof.Machine

@[simp] theorem nandGate_eq (a b : Signal) : nandGate a b = !(a && b) := by cases a <;> cases b <;> rfl

@[simp] theorem notGate_eq (a : Signal) : notGate a = !a := by cases a <;> rfl

@[simp] theorem andGate_eq (a b : Signal) : andGate a b = (a && b) := by cases a <;> cases b <;> rfl

@[simp] theorem orGate_eq (a b : Signal) : orGate a b = (a || b) := by cases a <;> cases b <;> rfl

@[simp] theorem xorGate_eq (a b : Signal) : xorGate a b = (a != b) := by cases a <;> cases b <;> rfl

@[simp] theorem muxGate_eq (a b sel : Signal) : muxGate a b sel = if sel then b else a := by
  cases a <;> cases b <;> cases sel <;> rfl

@[simp] theorem dmuxGate_eq (inp sel : Signal) : dmuxGate inp sel = (inp && !sel, inp && sel) := by
  cases inp <;> cases sel <;> rfl

theorem Bus.pos_and {w : Nat} (a b : Bus w) (i : Nat) : Bus.pos (a &&& b) i = (Bus.pos a i && Bus.pos b i) := by
  simp [Bus.pos]

theorem Bus.pos_or {w : Nat} (a b : Bus w) (i : Nat) : Bus.pos (a ||| b) i = (Bus.pos a i || Bus.pos b i) := by
  simp [Bus.pos]

theorem Bus.pos_not {w : Nat} (a : Bus w) {i : Nat} (h : i < w) : Bus.pos (~~~a) i = !Bus.pos a i := by
  simp [Bus.pos, h]

@[simp] theorem not16Gate_eq (a : Bus16) : not16Gate a = ~~~a :=
  Bus.ext_pos fun i h => by simp [not16Gate, h, Bus.pos_not]

@[simp] theorem and16Gate_eq (a b : Bus16) : and16Gate a b = a &&& b :=
  Bus.ext_pos fun i h => by simp [and16Gate, h, Bus.pos_and]

@[simp] theorem or16Gate_eq (a b : Bus16) : or16Gate a b = a ||| b :=
  Bus.ext_pos fun i h => by simp [or16Gate, h, Bus.pos_or]

@[simp] theorem mux16Gate_eq (a b : Bus16) (sel : Signal) : mux16Gate a b sel = if sel then b else a :=
  Bus.ext_pos fun i h => by cases sel <;> simp [mux16Gate, h]

/-- A property of every selector of two positions, from its four values. -/
theorem Bus.forall_two {P : Bus 2 → Prop} (h : ∀ n < 4, P (BitVec.ofNat 2 n)) (b : Bus 2) : P b := by
  simpa using h b.toNat b.isLt

/-- A property of every selector of three positions, from its eight values. -/
theorem Bus.forall_three {P : Bus 3 → Prop} (h : ∀ n < 8, P (BitVec.ofNat 3 n)) (b : Bus 3) : P b := by
  simpa using h b.toNat b.isLt

/-- A half adder's outputs are the two-bit sum of its inputs (R130). -/
theorem halfAdd_sum (a b : Signal) :
    2 * Signal.raw (halfAdd a b).2 + Signal.raw (halfAdd a b).1 = Signal.raw a + Signal.raw b := by
  revert a b; decide

/-- A full adder's outputs are the two-bit sum of its inputs (R131). -/
theorem fullAdd_sum (a b c : Signal) :
    2 * Signal.raw (fullAdd a b c).2 + Signal.raw (fullAdd a b c).1 = Signal.raw a + Signal.raw b + Signal.raw c := by
  revert a b c; decide

/-- Position i of a word is its bit of weight 2^(15-i) (R8). -/
theorem Bus.raw_pos (a : Bus16) {i : Nat} (h : i < 16) : Signal.raw (Bus.pos a i) = a.toNat / 2 ^ (15 - i) % 2 := by
  simp only [Bus.pos, BitVec.getMsbD, BitVec.getLsbD, Signal.raw, Nat.testBit_eq_decide_div_mod_eq]
  rcases Nat.mod_two_eq_zero_or_one (BitVec.toNat a / 2 ^ (15 - i)) with h1 | h1 <;> simp [h, h1]

/-- The low n positions of the chain and its carry are the sum of the operands' low n positions (R132). -/
theorem addChain_sum (a b : Bus16) (n : Nat) (h : n ≤ 16) :
    (addChain a b n).1.toNat + 2 ^ n * Signal.raw (addChain a b n).2 = a.toNat % 2 ^ n + b.toNat % 2 ^ n := by
  induction n with
  | zero => simp [addChain, Signal.raw, Nat.mod_one]
  | succ n ih =>
    cases n with
    | zero =>
      have h1 := halfAdd_sum (Bus.pos a 15) (Bus.pos b 15)
      rw [Bus.raw_pos a (by omega), Bus.raw_pos b (by omega)] at h1
      simp only [addChain, zero_add, pow_one]
      have : (Bus.build 1 fun _ => (halfAdd (Bus.pos a 15) (Bus.pos b 15)).1).toNat =
          Signal.raw (halfAdd (Bus.pos a 15) (Bus.pos b 15)).1 := by
        cases (halfAdd (Bus.pos a 15) (Bus.pos b 15)).1 <;> rfl
      simp at h1
      rw [this]; omega
    | succ n =>
      have ih := ih (by omega)
      have h1 := fullAdd_sum (Bus.pos a (14 - n)) (Bus.pos b (14 - n)) (addChain a b (n + 1)).2
      rw [Bus.raw_pos a (by omega), Bus.raw_pos b (by omega)] at h1
      have e : 15 - (14 - n) = n + 1 := by omega
      rw [e] at h1
      simp only [addChain]
      rw [BitVec.toNat_cons']
      have low : ∀ x : Nat, x % 2 ^ (n + 1 + 1) = x % 2 ^ (n + 1) + 2 ^ (n + 1) * (x / 2 ^ (n + 1) % 2) := fun x => by
        rw [Nat.pow_succ 2 (n + 1), Nat.mod_mul]
      rw [low a.toNat, low b.toNat]
      have bit : ∀ x : Bool, x.toNat = Signal.raw x := by decide
      rw [bit, Nat.shiftLeft_eq]
      have p : 2 ^ (n + 1 + 1) = 2 * 2 ^ (n + 1) := by ring
      rw [p]
      generalize 2 ^ (n + 1) = P at *
      generalize Signal.raw (fullAdd (Bus.pos a (14 - n)) (Bus.pos b (14 - n)) (addChain a b (n + 1)).2).1 = S at *
      generalize Signal.raw (fullAdd (Bus.pos a (14 - n)) (Bus.pos b (14 - n)) (addChain a b (n + 1)).2).2 = C at *
      nlinarith

/-- The ripple-carry adder is addition modulo 2^16 (R132). -/
@[simp] theorem add16Gate_eq (a b : Bus16) : add16Gate a b = a + b := by
  apply BitVec.eq_of_toNat_eq
  have := addChain_sum a b 16 le_rfl
  have l := (addChain a b 16).1.isLt
  rw [BitVec.toNat_add]
  simp only [add16Gate]
  rw [Nat.mod_eq_of_lt a.isLt, Nat.mod_eq_of_lt b.isLt] at this
  rw [← this, Nat.add_mul_mod_self_left, Nat.mod_eq_of_lt l]

/-- The sign of a word by its unsigned value (R8). -/
theorem Bus.s_eq (b : Bus16) : Bus.s b = if Bus.u b < 32768 then (Bus.u b : Int) else Bus.u b - 65536 := by
  have hb : Bus.u b < 65536 := b.isLt
  have h0 : Signal.raw (Bus.pos b 0) = Bus.u b / 32768 % 2 := Bus.raw_pos b (by omega)
  simp only [Bus.s, Signal.raw] at *
  generalize Bus.u b = v at *
  generalize Bus.pos b 0 = p at *
  cases p <;> simp at h0 ⊢ <;> omega

/-- The zero flag (R135). -/
theorem zeroFlag_eq (out : Bus16) : zeroFlag out = decide (Bus.u out = 0) := by
  have : Bus.u out = 0 ↔ ∀ i, i < 16 → Bus.pos out i = false := by
    constructor
    · intro h i _
      have : out = 0#16 := BitVec.eq_of_toNat_eq h
      subst this; simp [Bus.pos]
    · intro h
      have : out = 0#16 := Bus.ext_pos fun i hi => by rw [h i hi]; simp [Bus.pos]
      subst this; rfl
  simp only [zeroFlag, or8wayGate, Bus.slice, notGate_eq, orGate_eq, Bus.pos_build]
  rw [Bool.eq_iff_iff, decide_eq_true_iff, this]
  simp
  constructor
  · rintro ⟨h1, h2⟩ i hi
    interval_cases i <;> simp_all
  · intro h; simp [h]

/-- A REGISTER's step (R152): the old word out, the input in if load is 1. -/
@[simp] theorem registerStep_eq (q inp : Bus16) (load : Signal) :
    registerStep q inp load = (q, if load then inp else q) := by
  unfold registerStep; congr 1
  · exact Bus.ext_pos fun j h => by simp [h, bitStep, latchStep]
  · exact Bus.ext_pos fun j h => by cases load <;> simp [h, bitStep, latchStep]

/-- The PC's step (R190): the old value out, the next value by priority. -/
theorem pcStep_eq (q inp : Bus16) (increment load reset : Signal) :
    pcStep q inp increment load reset =
      (q, if reset then 0#16 else if load then inp else if increment then q + 1#16 else q) := by
  cases increment <;> cases load <;> cases reset <;> simp [pcStep, mux8way16Gate, pcControl, inc16Gate]

end Sys2Proof.Machine
end

