-- ==== Sys2Proof/Laws/Store.lean ====
section
/-! SUPPORT. The laws of a store: what a read sees after a write, and that every operation keeps the canonical form. The
read laws hold of every store, canonical or not. -/

namespace Sys2Proof.Machine

section
variable {α : Type} (d : α)

@[simp] theorem Store.read_nil (a : Nat) : Store.read d [] a = d := rfl

theorem Store.read_erase (m : Store α) (a b : Nat) :
    Store.read d (Store.erase m a) b = if b = a then d else Store.read d m b := by
  induction m with
  | nil => simp [Store.erase]
  | cons x rest ih =>
    obtain ⟨k, v⟩ := x
    simp only [Store.erase] at ih ⊢
    by_cases hk : k = a
    · subst hk
      simp only [List.filter_cons, ne_eq, not_true_eq_false, decide_false, Bool.false_eq_true, if_false, ih, Store.read]
      by_cases hb : b = k
      · simp [hb]
      · simp [hb, Ne.symm hb]
    · simp only [List.filter_cons, ne_eq, hk, not_false_eq_true, decide_true, if_true, Store.read, ih]
      by_cases hb : k = b
      · subst hb; simp [hk]
      · simp [hb]

theorem Store.read_insert (m : Store α) (a b : Nat) (v : α) (ha : ∀ x ∈ m, x.1 ≠ a) :
    Store.read d (Store.insert a v m) b = if b = a then v else Store.read d m b := by
  induction m with
  | nil => simp [Store.insert, Store.read, eq_comm]
  | cons x rest ih =>
    obtain ⟨k, w⟩ := x
    have hk : k ≠ a := ha _ (List.mem_cons_self ..)
    have ih := ih fun x hx => ha x (List.mem_cons_of_mem _ hx)
    simp only [Store.insert]
    split
    · simp only [Store.read, eq_comm (a := a)]
    · simp only [Store.read, ih]
      by_cases hb : k = b
      · subst hb; simp [hk]
      · simp [hb]

theorem Store.erase_ne (m : Store α) (a : Nat) : ∀ x ∈ Store.erase m a, x.1 ≠ a := by
  simp [Store.erase]

/-- Everything a write does to what is read: the value written under its number, the old value elsewhere. -/
@[simp] theorem Store.read_write [DecidableEq α] (m : Store α) (a b : Nat) (v : α) :
    Store.read d (Store.write d m a v) b = if b = a then v else Store.read d m b := by
  simp only [Store.write]
  split
  · next h => subst h; exact Store.read_erase v m a b
  · rw [Store.read_insert d _ _ _ _ (Store.erase_ne m a), Store.read_erase]
    by_cases hb : b = a <;> simp [hb]

theorem Store.erase_sublist (m : Store α) (a : Nat) : (Store.erase m a).Sublist m := List.filter_sublist

theorem Store.erase_wf {m : Store α} (h : Store.wf d m) (a : Nat) : Store.wf d (Store.erase m a) :=
  ⟨h.1.sublist (Store.erase_sublist m a), fun x hx => h.2 x ((Store.erase_sublist m a).subset hx)⟩

theorem Store.mem_insert {m : Store α} {a : Nat} {v : α} {x : Nat × α} :
    x ∈ Store.insert a v m ↔ x = (a, v) ∨ x ∈ m := by
  induction m with
  | nil => simp [Store.insert]
  | cons y rest ih =>
    simp only [Store.insert]
    split
    · simp
    · simp only [List.mem_cons, ih]
      tauto

theorem Store.insert_pairwise {m : Store α} (h : m.Pairwise fun x y => x.1 < y.1) (a : Nat) (v : α)
    (ha : ∀ x ∈ m, x.1 ≠ a) : (Store.insert a v m).Pairwise fun x y => x.1 < y.1 := by
  induction m with
  | nil => simp [Store.insert]
  | cons y rest ih =>
    have hy := List.pairwise_cons.mp h
    have hne : y.1 ≠ a := ha y (List.mem_cons_self ..)
    simp only [Store.insert]
    split
    · next hlt =>
      refine List.pairwise_cons.mpr ⟨?_, h⟩
      intro x hx
      rcases List.mem_cons.mp hx with rfl | hx
      · exact hlt
      · exact lt_trans hlt (hy.1 x hx)
    · next hge =>
      refine List.pairwise_cons.mpr ⟨?_, ih hy.2 fun x hx => ha x (List.mem_cons_of_mem _ hx)⟩
      intro x hx
      rcases Store.mem_insert.mp hx with rfl | hx
      · exact lt_of_le_of_ne (not_lt.mp hge) hne
      · exact hy.1 x hx

theorem Store.wf_nil : Store.wf d ([] : Store α) := ⟨List.Pairwise.nil, fun _ hx => nomatch hx⟩

/-- A write keeps the canonical form. -/
theorem Store.write_wf [DecidableEq α] {m : Store α} (h : Store.wf d m) (a : Nat) (v : α) :
    Store.wf d (Store.write d m a v) := by
  have he := Store.erase_wf d h a
  simp only [Store.write]
  split
  · exact he
  · next hv =>
    refine ⟨Store.insert_pairwise he.1 a v (Store.erase_ne m a), ?_⟩
    intro x hx
    rcases Store.mem_insert.mp hx with rfl | hx
    · exact hv
    · exact he.2 x hx

/-- An entry of a written store is the entry written or one that was there. -/
theorem Store.mem_write [DecidableEq α] {m : Store α} {a : Nat} {v : α} {x : Nat × α}
    (hx : x ∈ Store.write d m a v) : x = (a, v) ∨ x ∈ m := by
  simp only [Store.write] at hx
  split at hx
  · exact .inr ((Store.erase_sublist m a).subset hx)
  · rcases Store.mem_insert.mp hx with h | h
    · exact .inl h
    · exact .inr ((Store.erase_sublist m a).subset h)

/-- A canonical store lists no number below its first. -/
theorem Store.read_below {m : Store α} {a : Nat} (h : ∀ x ∈ m, a < x.1) : Store.read d m a = d := by
  induction m with
  | nil => rfl
  | cons x rest ih =>
    have hx := h x (List.mem_cons_self ..)
    simp only [Store.read]
    rw [if_neg (by omega)]
    exact ih fun y hy => h y (List.mem_cons_of_mem _ hy)

/-- Two canonical stores that read alike are the same data. -/
theorem Store.ext_of_wf {m m' : Store α} (h : Store.wf d m) (h' : Store.wf d m')
    (hr : ∀ a, Store.read d m a = Store.read d m' a) : m = m' := by
  induction m generalizing m' with
  | nil =>
    cases m' with
    | nil => rfl
    | cons x rest =>
      have := hr x.1
      simp only [Store.read, if_true] at this
      exact absurd this.symm (h'.2 x (List.mem_cons_self ..))
  | cons x rest ih =>
    cases m' with
    | nil =>
      have := hr x.1
      simp only [Store.read, if_true] at this
      exact absurd this (h.2 x (List.mem_cons_self ..))
    | cons y rest' =>
      have hx := List.pairwise_cons.mp h.1
      have hy := List.pairwise_cons.mp h'.1
      have nx := h.2 x (List.mem_cons_self ..)
      have ny := h'.2 y (List.mem_cons_self ..)
      have key : x.1 = y.1 := by
        rcases lt_trichotomy x.1 y.1 with hlt | heq | hgt
        · exfalso
          have := hr x.1
          rw [Store.read_below d (m := y :: rest')] at this
          · exact nx (by simpa [Store.read] using this)
          · intro z hz
            rcases List.mem_cons.mp hz with rfl | hz
            · exact hlt
            · exact lt_trans hlt (hy.1 z hz)
        · exact heq
        · exfalso
          have := hr y.1
          rw [Store.read_below d (m := x :: rest)] at this
          · exact ny (by simpa [Store.read] using this.symm)
          · intro z hz
            rcases List.mem_cons.mp hz with rfl | hz
            · exact hgt
            · exact lt_trans hgt (hx.1 z hz)
      have val : x.2 = y.2 := by
        have := hr x.1
        simpa [Store.read, key] using this
      have tail : rest = rest' := by
        refine ih ⟨hx.2, fun z hz => h.2 z (List.mem_cons_of_mem _ hz)⟩
          ⟨hy.2, fun z hz => h'.2 z (List.mem_cons_of_mem _ hz)⟩ fun a => ?_
        by_cases ha : x.1 = a
        · subst ha
          rw [Store.read_below d fun z hz => hx.1 z hz, Store.read_below d fun z hz => key ▸ hy.1 z hz]
        · have := hr a
          simpa [Store.read, ha, key ▸ ha] using this
      rw [tail, Prod.ext key val]

end

/-- Everything MemWrite does to a memory's words (R12). -/
@[simp] theorem memWrite_word {k : Nat} (m : Memory) (a : Bus k) (v : Bus16) (b : Nat) :
    (memWrite m a v).word b = if b = Bus.u a then v else m.word b := by
  simp [Memory.word, memWrite]

/-- MemWrite keeps a memory canonical and within its address space (R40). -/
theorem memWrite_wf {k : Nat} {m : Memory} (h : Memory.wf k m) (a : Bus k) (v : Bus16) :
    Memory.wf k (memWrite m a v) := by
  refine ⟨Store.write_wf _ h.1 _ _, fun x hx => ?_⟩
  rcases Store.mem_write _ hx with rfl | hx
  · exact BitVec.isLt a
  · exact h.2 x hx

/-- A memory block as constructed is canonical. -/
theorem Memory.wf_nil (k : Nat) : Memory.wf k [] := ⟨⟨List.Pairwise.nil, by simp⟩, by simp⟩

end Sys2Proof.Machine
end

