-- ==== Sys2Proof/Laws/State.lean ====
section
/-! SUPPORT. One lemma per field per update of State, what each peek sees after each update, and that each update
keeps the state canonical. -/

namespace Sys2Proof.Machine

section
variable (s : State) (n k : Ident)

@[simp] theorem State.setLatch_latches (q : Signal) : (s.setLatch n q).latches = Store.write false s.latches n q := rfl
@[simp] theorem State.setLatch_bits (q : Signal) : (s.setLatch n q).bits = s.bits := rfl
@[simp] theorem State.setLatch_registers (q : Signal) : (s.setLatch n q).registers = s.registers := rfl
@[simp] theorem State.setLatch_ram8 (q : Signal) : (s.setLatch n q).ram8 = s.ram8 := rfl
@[simp] theorem State.setLatch_ram64 (q : Signal) : (s.setLatch n q).ram64 = s.ram64 := rfl
@[simp] theorem State.setLatch_ram512 (q : Signal) : (s.setLatch n q).ram512 = s.ram512 := rfl
@[simp] theorem State.setLatch_ram4k (q : Signal) : (s.setLatch n q).ram4k = s.ram4k := rfl
@[simp] theorem State.setLatch_ram16k (q : Signal) : (s.setLatch n q).ram16k = s.ram16k := rfl
@[simp] theorem State.setLatch_pcs (q : Signal) : (s.setLatch n q).pcs = s.pcs := rfl
@[simp] theorem State.setLatch_outputs (q : Signal) : (s.setLatch n q).outputs = s.outputs := rfl
@[simp] theorem State.setLatch_system (q : Signal) : (s.setLatch n q).system = s.system := rfl
@[simp] theorem State.setLatch_pending (q : Signal) : (s.setLatch n q).pending = s.pending := rfl
@[simp] theorem State.setLatch_rams (q : Signal) (z : RamSize) : (s.setLatch n q).rams z = s.rams z := by cases z <;> rfl

@[simp] theorem State.setBit_latches (q : Signal) : (s.setBit n q).latches = s.latches := rfl
@[simp] theorem State.setBit_bits (q : Signal) : (s.setBit n q).bits = Store.write false s.bits n q := rfl
@[simp] theorem State.setBit_registers (q : Signal) : (s.setBit n q).registers = s.registers := rfl
@[simp] theorem State.setBit_ram8 (q : Signal) : (s.setBit n q).ram8 = s.ram8 := rfl
@[simp] theorem State.setBit_ram64 (q : Signal) : (s.setBit n q).ram64 = s.ram64 := rfl
@[simp] theorem State.setBit_ram512 (q : Signal) : (s.setBit n q).ram512 = s.ram512 := rfl
@[simp] theorem State.setBit_ram4k (q : Signal) : (s.setBit n q).ram4k = s.ram4k := rfl
@[simp] theorem State.setBit_ram16k (q : Signal) : (s.setBit n q).ram16k = s.ram16k := rfl
@[simp] theorem State.setBit_pcs (q : Signal) : (s.setBit n q).pcs = s.pcs := rfl
@[simp] theorem State.setBit_outputs (q : Signal) : (s.setBit n q).outputs = s.outputs := rfl
@[simp] theorem State.setBit_system (q : Signal) : (s.setBit n q).system = s.system := rfl
@[simp] theorem State.setBit_pending (q : Signal) : (s.setBit n q).pending = s.pending := rfl
@[simp] theorem State.setBit_rams (q : Signal) (z : RamSize) : (s.setBit n q).rams z = s.rams z := by cases z <;> rfl

@[simp] theorem State.setRegister_latches (q : Bus16) : (s.setRegister n q).latches = s.latches := rfl
@[simp] theorem State.setRegister_bits (q : Bus16) : (s.setRegister n q).bits = s.bits := rfl
@[simp] theorem State.setRegister_registers (q : Bus16) : (s.setRegister n q).registers = Store.write (0#16) s.registers n q := rfl
@[simp] theorem State.setRegister_ram8 (q : Bus16) : (s.setRegister n q).ram8 = s.ram8 := rfl
@[simp] theorem State.setRegister_ram64 (q : Bus16) : (s.setRegister n q).ram64 = s.ram64 := rfl
@[simp] theorem State.setRegister_ram512 (q : Bus16) : (s.setRegister n q).ram512 = s.ram512 := rfl
@[simp] theorem State.setRegister_ram4k (q : Bus16) : (s.setRegister n q).ram4k = s.ram4k := rfl
@[simp] theorem State.setRegister_ram16k (q : Bus16) : (s.setRegister n q).ram16k = s.ram16k := rfl
@[simp] theorem State.setRegister_pcs (q : Bus16) : (s.setRegister n q).pcs = s.pcs := rfl
@[simp] theorem State.setRegister_outputs (q : Bus16) : (s.setRegister n q).outputs = s.outputs := rfl
@[simp] theorem State.setRegister_system (q : Bus16) : (s.setRegister n q).system = s.system := rfl
@[simp] theorem State.setRegister_pending (q : Bus16) : (s.setRegister n q).pending = s.pending := rfl
@[simp] theorem State.setRegister_rams (q : Bus16) (z : RamSize) : (s.setRegister n q).rams z = s.rams z := by cases z <;> rfl

@[simp] theorem State.setPc_latches (q : Bus16) : (s.setPc n q).latches = s.latches := rfl
@[simp] theorem State.setPc_bits (q : Bus16) : (s.setPc n q).bits = s.bits := rfl
@[simp] theorem State.setPc_registers (q : Bus16) : (s.setPc n q).registers = s.registers := rfl
@[simp] theorem State.setPc_ram8 (q : Bus16) : (s.setPc n q).ram8 = s.ram8 := rfl
@[simp] theorem State.setPc_ram64 (q : Bus16) : (s.setPc n q).ram64 = s.ram64 := rfl
@[simp] theorem State.setPc_ram512 (q : Bus16) : (s.setPc n q).ram512 = s.ram512 := rfl
@[simp] theorem State.setPc_ram4k (q : Bus16) : (s.setPc n q).ram4k = s.ram4k := rfl
@[simp] theorem State.setPc_ram16k (q : Bus16) : (s.setPc n q).ram16k = s.ram16k := rfl
@[simp] theorem State.setPc_pcs (q : Bus16) : (s.setPc n q).pcs = Store.write (0#16) s.pcs n q := rfl
@[simp] theorem State.setPc_outputs (q : Bus16) : (s.setPc n q).outputs = s.outputs := rfl
@[simp] theorem State.setPc_system (q : Bus16) : (s.setPc n q).system = s.system := rfl
@[simp] theorem State.setPc_pending (q : Bus16) : (s.setPc n q).pending = s.pending := rfl
@[simp] theorem State.setPc_rams (q : Bus16) (z : RamSize) : (s.setPc n q).rams z = s.rams z := by cases z <;> rfl

@[simp] theorem State.setRam_latches (z : RamSize) (m : Memory) : (s.setRam z n m).latches = s.latches := by
  cases z <;> rfl
@[simp] theorem State.setRam_bits (z : RamSize) (m : Memory) : (s.setRam z n m).bits = s.bits := by
  cases z <;> rfl
@[simp] theorem State.setRam_registers (z : RamSize) (m : Memory) : (s.setRam z n m).registers = s.registers := by
  cases z <;> rfl
@[simp] theorem State.setRam_pcs (z : RamSize) (m : Memory) : (s.setRam z n m).pcs = s.pcs := by
  cases z <;> rfl
@[simp] theorem State.setRam_outputs (z : RamSize) (m : Memory) : (s.setRam z n m).outputs = s.outputs := by
  cases z <;> rfl
@[simp] theorem State.setRam_system (z : RamSize) (m : Memory) : (s.setRam z n m).system = s.system := by
  cases z <;> rfl
@[simp] theorem State.setRam_pending (z : RamSize) (m : Memory) : (s.setRam z n m).pending = s.pending := by
  cases z <;> rfl
@[simp] theorem State.setRam_rams (z z' : RamSize) (m : Memory) :
    (s.setRam z n m).rams z' = if z' = z then Store.write [] (s.rams z) n m else s.rams z' := by
  cases z <;> cases z' <;> rfl

@[simp] theorem State.give_latches (source : Option Ident) (outs : List (Port × List Signal)) :
    (s.give source outs).latches = s.latches := rfl
@[simp] theorem State.give_bits (source : Option Ident) (outs : List (Port × List Signal)) :
    (s.give source outs).bits = s.bits := rfl
@[simp] theorem State.give_registers (source : Option Ident) (outs : List (Port × List Signal)) :
    (s.give source outs).registers = s.registers := rfl
@[simp] theorem State.give_ram8 (source : Option Ident) (outs : List (Port × List Signal)) :
    (s.give source outs).ram8 = s.ram8 := rfl
@[simp] theorem State.give_ram64 (source : Option Ident) (outs : List (Port × List Signal)) :
    (s.give source outs).ram64 = s.ram64 := rfl
@[simp] theorem State.give_ram512 (source : Option Ident) (outs : List (Port × List Signal)) :
    (s.give source outs).ram512 = s.ram512 := rfl
@[simp] theorem State.give_ram4k (source : Option Ident) (outs : List (Port × List Signal)) :
    (s.give source outs).ram4k = s.ram4k := rfl
@[simp] theorem State.give_ram16k (source : Option Ident) (outs : List (Port × List Signal)) :
    (s.give source outs).ram16k = s.ram16k := rfl
@[simp] theorem State.give_pcs (source : Option Ident) (outs : List (Port × List Signal)) :
    (s.give source outs).pcs = s.pcs := rfl
@[simp] theorem State.give_outputs (source : Option Ident) (outs : List (Port × List Signal)) :
    (s.give source outs).outputs = outs.map fun o => ⟨source, o.1, o.2⟩ := rfl
@[simp] theorem State.give_system (source : Option Ident) (outs : List (Port × List Signal)) :
    (s.give source outs).system = s.system := rfl
@[simp] theorem State.give_pending (source : Option Ident) (outs : List (Port × List Signal)) :
    (s.give source outs).pending = s.pending := rfl
@[simp] theorem State.give_rams (source : Option Ident) (outs : List (Port × List Signal)) (z : RamSize) :
    (s.give source outs).rams z = s.rams z := by cases z <;> rfl

@[simp] theorem State.peekLatch_setLatch (q : Signal) :
    (s.setLatch n q).peekLatch k = if k = n then q else s.peekLatch k := by
  simp [State.peekLatch]
@[simp] theorem State.peekLatch_setBit (q : Signal) : (s.setBit n q).peekLatch k = s.peekLatch k := rfl
@[simp] theorem State.peekLatch_setRegister (q : Bus16) : (s.setRegister n q).peekLatch k = s.peekLatch k := rfl
@[simp] theorem State.peekLatch_setPc (q : Bus16) : (s.setPc n q).peekLatch k = s.peekLatch k := rfl
@[simp] theorem State.peekLatch_setRam (z : RamSize) (m : Memory) : (s.setRam z n m).peekLatch k = s.peekLatch k := by
  simp [State.peekLatch]
@[simp] theorem State.peekLatch_give (source : Option Ident) (outs : List (Port × List Signal)) :
    (s.give source outs).peekLatch k = s.peekLatch k := rfl

@[simp] theorem State.peekBit_setLatch (q : Signal) : (s.setLatch n q).peekBit k = s.peekBit k := rfl
@[simp] theorem State.peekBit_setBit (q : Signal) :
    (s.setBit n q).peekBit k = if k = n then q else s.peekBit k := by
  simp [State.peekBit]
@[simp] theorem State.peekBit_setRegister (q : Bus16) : (s.setRegister n q).peekBit k = s.peekBit k := rfl
@[simp] theorem State.peekBit_setPc (q : Bus16) : (s.setPc n q).peekBit k = s.peekBit k := rfl
@[simp] theorem State.peekBit_setRam (z : RamSize) (m : Memory) : (s.setRam z n m).peekBit k = s.peekBit k := by
  simp [State.peekBit]
@[simp] theorem State.peekBit_give (source : Option Ident) (outs : List (Port × List Signal)) :
    (s.give source outs).peekBit k = s.peekBit k := rfl

@[simp] theorem State.peekRegister_setLatch (q : Signal) : (s.setLatch n q).peekRegister k = s.peekRegister k := rfl
@[simp] theorem State.peekRegister_setBit (q : Signal) : (s.setBit n q).peekRegister k = s.peekRegister k := rfl
@[simp] theorem State.peekRegister_setRegister (q : Bus16) :
    (s.setRegister n q).peekRegister k = if k = n then q else s.peekRegister k := by
  simp [State.peekRegister]
@[simp] theorem State.peekRegister_setPc (q : Bus16) : (s.setPc n q).peekRegister k = s.peekRegister k := rfl
@[simp] theorem State.peekRegister_setRam (z : RamSize) (m : Memory) : (s.setRam z n m).peekRegister k = s.peekRegister k := by
  simp [State.peekRegister]
@[simp] theorem State.peekRegister_give (source : Option Ident) (outs : List (Port × List Signal)) :
    (s.give source outs).peekRegister k = s.peekRegister k := rfl

@[simp] theorem State.peekPc_setLatch (q : Signal) : (s.setLatch n q).peekPc k = s.peekPc k := rfl
@[simp] theorem State.peekPc_setBit (q : Signal) : (s.setBit n q).peekPc k = s.peekPc k := rfl
@[simp] theorem State.peekPc_setRegister (q : Bus16) : (s.setRegister n q).peekPc k = s.peekPc k := rfl
@[simp] theorem State.peekPc_setPc (q : Bus16) :
    (s.setPc n q).peekPc k = if k = n then q else s.peekPc k := by
  simp [State.peekPc]
@[simp] theorem State.peekPc_setRam (z : RamSize) (m : Memory) : (s.setRam z n m).peekPc k = s.peekPc k := by
  simp [State.peekPc]
@[simp] theorem State.peekPc_give (source : Option Ident) (outs : List (Port × List Signal)) :
    (s.give source outs).peekPc k = s.peekPc k := rfl

@[simp] theorem State.peekRam_setLatch (q : Signal) (z : RamSize) : (s.setLatch n q).peekRam z k = s.peekRam z k := by
  simp [State.peekRam]
@[simp] theorem State.peekRam_setBit (q : Signal) (z : RamSize) : (s.setBit n q).peekRam z k = s.peekRam z k := by
  simp [State.peekRam]
@[simp] theorem State.peekRam_setRegister (q : Bus16) (z : RamSize) : (s.setRegister n q).peekRam z k = s.peekRam z k := by
  simp [State.peekRam]
@[simp] theorem State.peekRam_setPc (q : Bus16) (z : RamSize) : (s.setPc n q).peekRam z k = s.peekRam z k := by
  simp [State.peekRam]
@[simp] theorem State.peekRam_give (source : Option Ident) (outs : List (Port × List Signal)) (z : RamSize) :
    (s.give source outs).peekRam z k = s.peekRam z k := by
  simp [State.peekRam]
@[simp] theorem State.peekRam_setRam (z z' : RamSize) (m : Memory) :
    (s.setRam z n m).peekRam z' k = if z' = z ∧ k = n then m else s.peekRam z' k := by
  by_cases hz : z' = z <;> by_cases hk : k = n <;> simp [State.peekRam, hz, hk]

@[simp] theorem State.wired_give (c : Comp) (source : Option Ident) (outs : List (Port × List Signal)) :
    (s.give source outs).wired c n = s.wired c n := rfl

end

section
variable {s : State}

theorem State.wf_give (h : s.wf) (source : Option Ident) (outs : List (Port × List Signal)) :
    (s.give source outs).wf := by
  simpa [State.wf] using h

theorem State.wf_setLatch (h : s.wf) (n : Ident) (q : Signal) : (s.setLatch n q).wf := by
  obtain ⟨h1, h2, h3, h4, h5⟩ := h
  exact ⟨Store.write_wf _ h1 n q, h2, h3, h4, fun z => by simpa using h5 z⟩

theorem State.wf_setBit (h : s.wf) (n : Ident) (q : Signal) : (s.setBit n q).wf := by
  obtain ⟨h1, h2, h3, h4, h5⟩ := h
  exact ⟨h1, Store.write_wf _ h2 n q, h3, h4, fun z => by simpa using h5 z⟩

theorem State.wf_setRegister (h : s.wf) (n : Ident) (q : Bus16) : (s.setRegister n q).wf := by
  obtain ⟨h1, h2, h3, h4, h5⟩ := h
  exact ⟨h1, h2, Store.write_wf _ h3 n q, h4, fun z => by simpa using h5 z⟩

theorem State.wf_setPc (h : s.wf) (n : Ident) (q : Bus16) : (s.setPc n q).wf := by
  obtain ⟨h1, h2, h3, h4, h5⟩ := h
  exact ⟨h1, h2, h3, Store.write_wf _ h4 n q, fun z => by simpa using h5 z⟩

/-- The contents a canonical state holds for a memory block are canonical and within its address space. -/
theorem State.peekRam_wf (h : s.wf) (z : RamSize) (n : Ident) : Memory.wf z.addressWidth (s.peekRam z n) := by
  have hz := h.2.2.2.2 z
  have key : ∀ m : Store Memory, (∀ x ∈ m, Memory.wf z.addressWidth x.2) →
      Memory.wf z.addressWidth (Store.read [] m n) := by
    intro m hm
    induction m with
    | nil => exact Memory.wf_nil _
    | cons x rest ih =>
      simp only [Store.read]
      split
      · exact hm x (List.mem_cons_self ..)
      · exact ih fun y hy => hm y (List.mem_cons_of_mem _ hy)
  exact key _ hz.2

theorem State.wf_setRam (h : s.wf) (z : RamSize) (n : Ident) {m : Memory} (hm : Memory.wf z.addressWidth m) :
    (s.setRam z n m).wf := by
  obtain ⟨h1, h2, h3, h4, h5⟩ := h
  refine ⟨by simpa using h1, by simpa using h2, by simpa using h3, by simpa using h4, fun z' => ?_⟩
  rw [State.setRam_rams]
  split
  · next hz =>
    subst hz
    refine ⟨Store.write_wf _ (h5 _).1 n m, fun x hx => ?_⟩
    rcases Store.mem_write _ hx with rfl | hx
    · exact hm
    · exact (h5 _).2 x hx
  · exact h5 z'

/-- Construction keeps the state canonical. -/
theorem State.wf_construct (h : s.wf) (d : InstDecl) : (s.construct d).wf := by
  simp only [State.construct]
  cases d.comp <;>
    first
    | exact h
    | exact State.wf_setLatch h _ _
    | exact State.wf_setBit h _ _
    | exact State.wf_setRegister h _ _
    | exact State.wf_setPc h _ _
    | exact State.wf_setRam h _ _ (Memory.wf_nil _)

/-- The memories and every other store of the reset state are canonical. -/
theorem State.reset_wf : State.reset.wf :=
  ⟨Store.wf_nil _, Store.wf_nil _, Store.wf_nil _, Store.wf_nil _,
    fun z => by cases z <;> exact ⟨Store.wf_nil _, fun x hx => nomatch hx⟩⟩

end

end Sys2Proof.Machine
end

