-- ==== Sys2Proof/Laws/Ops.lean ====
section
/-! SUPPORT. The frames of the writes at the clock edge, what a memory cycle and a PC cycle do, and what every operation
keeps: the canonical form, the wiring and the host's queue. -/

namespace Sys2Proof.Machine

theorem SameInstance.rfl' (c : Comp) (n : Ident) (s : State) : SameInstance c n s s := by
  cases c <;> simp [SameInstance]

theorem SameInstance.symm' {c : Comp} {n : Ident} {s t : State} (h : SameInstance c n s t) : SameInstance c n t s := by
  cases c <;> simp_all [SameInstance]

theorem SameInstance.trans' {c : Comp} {n : Ident} {s t u : State} (h : SameInstance c n s t)
    (h' : SameInstance c n t u) : SameInstance c n s u := by
  cases c <;> simp_all [SameInstance]

/-- Only the stores of instances matter for what two states agree on. -/
theorem SameInstance.congr' {c : Comp} {n : Ident} {s t t' : State} (h : SameInstance c n s t)
    (hr : ∀ z, t'.rams z = t.rams z) (hl : t'.latches = t.latches) (hb : t'.bits = t.bits)
    (hg : t'.registers = t.registers) (hp : t'.pcs = t.pcs) : SameInstance c n s t' := by
  cases c <;>
    simp_all [SameInstance, State.peekLatch, State.peekBit, State.peekRegister, State.peekPc, State.peekRam]

/-- What the cycle returned is no part of an instance. -/
theorem SameInstance.outputs (c : Comp) (n : Ident) (s : State) (outs : List Output) :
    SameInstance c n s { s with outputs := outs } :=
  SameInstance.congr' (SameInstance.rfl' c n s) (by intro z; cases z <;> rfl) rfl rfl rfl rfl

theorem stepsOnly_setLatch (s : State) (n : Ident) (q : Signal) (source : Option Ident)
    (outs : List (Port × List Signal)) : StepsOnly .latch n s ((s.setLatch n q).give source outs) := by
  refine ⟨fun c' n' h => ?_, by simp, by simp⟩
  cases c' <;> simp_all [SameInstance]

theorem stepsOnly_setBit (s : State) (n : Ident) (q : Signal) (source : Option Ident)
    (outs : List (Port × List Signal)) : StepsOnly .bit n s ((s.setBit n q).give source outs) := by
  refine ⟨fun c' n' h => ?_, by simp, by simp⟩
  cases c' <;> simp_all [SameInstance]

theorem stepsOnly_setRegister (s : State) (n : Ident) (q : Bus16) (source : Option Ident)
    (outs : List (Port × List Signal)) : StepsOnly .register n s ((s.setRegister n q).give source outs) := by
  refine ⟨fun c' n' h => ?_, by simp, by simp⟩
  cases c' <;> simp_all [SameInstance]

theorem stepsOnly_setPc (s : State) (n : Ident) (q : Bus16) (source : Option Ident)
    (outs : List (Port × List Signal)) : StepsOnly .pc n s ((s.setPc n q).give source outs) := by
  refine ⟨fun c' n' h => ?_, by simp, by simp⟩
  cases c' <;> simp_all [SameInstance]

theorem stepsOnly_setRam (s : State) (z : RamSize) (n : Ident) (m : Memory) (source : Option Ident)
    (outs : List (Port × List Signal)) : StepsOnly z.comp n s ((s.setRam z n m).give source outs) := by
  refine ⟨fun c' n' h => ?_, by simp, by simp⟩
  cases z <;> cases c' <;> simp_all [SameInstance, RamSize.comp]

/-- Everything a memory cycle does (R170). -/
theorem ramCycle_stepped {k : Nat} (z : RamSize) (n : Ident) (inp : Bus16) (address : Bus k) (load : Signal)
    (s : State) : RamStepped z n inp (Bus.u address) load s (.next (ramCycle z n inp address load s)) := by
  refine ⟨_, rfl, by simp [ramCycle, ramStep, memRead], ?_, stepsOnly_setRam ..⟩
  intro b; cases load <;> simp [ramCycle, ramStep]

/-- The operation of a memory block of any size is its memory cycle (R171 to R175). -/
theorem exec_ramOperation (z : RamSize) (n : Ident) (inp : Bus16) (address : Bus z.addressWidth) (load : Signal)
    (s : State) : exec (z.operation n inp address load) s = .next (ramCycle z n inp address load s) := by
  cases z <;> rfl

/-- Everything a PC cycle does (R190). -/
theorem pcCycle_stepped (n : Ident) (inp : Bus16) (increment load reset : Signal) (s : State) :
    PcStepped n
      (if reset then 0#16 else if load then inp else if increment then s.peekPc n + 1#16 else s.peekPc n) s
      (.next (pcCycle n inp increment load reset s)) :=
  ⟨_, rfl, by simp [pcCycle, pcStep_eq], by simp [pcCycle, pcStep_eq], stepsOnly_setPc ..⟩

/-- The canonical form is a property of the stores of instances. -/
theorem State.wf_congr {s t : State} (h : s.wf) (hr : ∀ z, t.rams z = s.rams z) (hl : t.latches = s.latches)
    (hb : t.bits = s.bits) (hg : t.registers = s.registers) (hp : t.pcs = s.pcs) : t.wf := by
  unfold State.wf; rw [hl, hb, hg, hp]; simp only [hr]; exact h

/-- A memory cycle keeps the canonical form. -/
theorem ramCycle_wf {s : State} (h : s.wf) (z : RamSize) (n : Ident) (inp : Bus16) (address : Bus z.addressWidth)
    (load : Signal) : (ramCycle z n inp address load s).wf := by
  refine State.wf_give (State.wf_setRam h z n ?_) _ _
  cases load
  · exact State.peekRam_wf h z n
  · exact memWrite_wf (State.peekRam_wf h z n) address inp

/-- Everything exec keeps: the canonical form, the wiring and the host's queue. -/
theorem exec_keeps {i : Instr} {s t : State} (h : s.wf) (e : exec i s = .next t) :
    t.wf ∧ t.system = s.system ∧ t.pending = s.pending := by
  cases i <;> cases e
  case latch => exact ⟨State.wf_give (State.wf_setLatch h _ _) _ _, by simp, by simp⟩
  case bit => exact ⟨State.wf_give (State.wf_setBit h _ _) _ _, by simp, by simp⟩
  case register => exact ⟨State.wf_give (State.wf_setRegister h _ _) _ _, by simp, by simp⟩
  case ram8 => exact ⟨ramCycle_wf h .ram8 .., by simp [ramCycle], by simp [ramCycle]⟩
  case ram64 => exact ⟨ramCycle_wf h .ram64 .., by simp [ramCycle], by simp [ramCycle]⟩
  case ram512 => exact ⟨ramCycle_wf h .ram512 .., by simp [ramCycle], by simp [ramCycle]⟩
  case ram4k => exact ⟨ramCycle_wf h .ram4k .., by simp [ramCycle], by simp [ramCycle]⟩
  case ram16k => exact ⟨ramCycle_wf h .ram16k .., by simp [ramCycle], by simp [ramCycle]⟩
  case pcReset => exact ⟨State.wf_give (State.wf_setPc h _ _) _ _, by simp [pcCycle], by simp [pcCycle]⟩
  case pcLoad => exact ⟨State.wf_give (State.wf_setPc h _ _) _ _, by simp [pcCycle], by simp [pcCycle]⟩
  case pcInc => exact ⟨State.wf_give (State.wf_setPc h _ _) _ _, by simp [pcCycle], by simp [pcCycle]⟩
  case pcHold => exact ⟨State.wf_give (State.wf_setPc h _ _) _ _, by simp [pcCycle], by simp [pcCycle]⟩
  all_goals exact ⟨State.wf_give h _ _, by simp, by simp⟩

/-- Construction of one instance leaves every other as it was. -/
theorem construct_other {s : State} {d : InstDecl} {c : Comp} {n : Ident} (h : (⟨n, c⟩ : InstDecl) ≠ d) :
    SameInstance c n s (s.construct d) := by
  obtain ⟨dn, dc⟩ := d
  cases dc <;> cases c <;> simp_all [State.construct, SameInstance]

/-- Construction of an instance sets its every cell to 0 (R32). -/
theorem construct_zero (s : State) (d : InstDecl) : ZeroInstance d.comp d.name (s.construct d) := by
  obtain ⟨dn, dc⟩ := d
  have ram : ∀ z n a, (State.reset.peekRam z n).word a = 0x0000#16 := by intro z n a; cases z <;> rfl
  cases dc <;> simp_all [State.construct, SameInstance, ZeroInstance, Memory.word]
  all_goals rfl

end Sys2Proof.Machine
end

