-- ==== Sys2Proof/Laws/PerInstr.lean ====
section
/-! SUPPORT. A fact about each operation as syntax: the port values the encoder writes are well formed, so that decoding
never refuses an encoded operation. -/

namespace Sys2Proof.Laws.EncodedPortsFit

open Sys2Proof

/-- The encoder gives every input port of the operation's component a value of the port's width, of two-valued
signals (R61). -/
def Statement (i : Instr) : Prop := (encode i).WellFormed

/-- The statement from its two halves, widths and signals. -/
theorem of_ports {i : Instr} (hw : i.ports.map List.length = i.comp.inputs.map Prod.snd)
    (hs : i.ports.all RawBus.valid = true) : Statement i :=
  ⟨hw, fun r hr x hx => by
    have := List.all_eq_true.mp hs r hr
    simpa using List.all_eq_true.mp this x hx⟩

theorem nand (a b : Signal) : Statement (.nand a b) :=
  of_ports (by simp [Instr.ports, Instr.comp, Comp.inputs]) (by simp [Instr.ports])

theorem not (a : Signal) : Statement (.not a) :=
  of_ports (by simp [Instr.ports, Instr.comp, Comp.inputs]) (by simp [Instr.ports])

theorem and (a b : Signal) : Statement (.and a b) :=
  of_ports (by simp [Instr.ports, Instr.comp, Comp.inputs]) (by simp [Instr.ports])

theorem or (a b : Signal) : Statement (.or a b) :=
  of_ports (by simp [Instr.ports, Instr.comp, Comp.inputs]) (by simp [Instr.ports])

theorem xor (a b : Signal) : Statement (.xor a b) :=
  of_ports (by simp [Instr.ports, Instr.comp, Comp.inputs]) (by simp [Instr.ports])

theorem mux (a b sel : Signal) : Statement (.mux a b sel) :=
  of_ports (by simp [Instr.ports, Instr.comp, Comp.inputs]) (by simp [Instr.ports])

theorem dmux (inp sel : Signal) : Statement (.dmux inp sel) :=
  of_ports (by simp [Instr.ports, Instr.comp, Comp.inputs]) (by simp [Instr.ports])

theorem not16 (a : Bus16) : Statement (.not16 a) :=
  of_ports (by simp [Instr.ports, Instr.comp, Comp.inputs]) (by simp [Instr.ports])

theorem and16 (a b : Bus16) : Statement (.and16 a b) :=
  of_ports (by simp [Instr.ports, Instr.comp, Comp.inputs]) (by simp [Instr.ports])

theorem or16 (a b : Bus16) : Statement (.or16 a b) :=
  of_ports (by simp [Instr.ports, Instr.comp, Comp.inputs]) (by simp [Instr.ports])

theorem mux16 (a b : Bus16) (sel : Signal) : Statement (.mux16 a b sel) :=
  of_ports (by simp [Instr.ports, Instr.comp, Comp.inputs]) (by simp [Instr.ports])

theorem or8way (inp : Bus 8) : Statement (.or8way inp) :=
  of_ports (by simp [Instr.ports, Instr.comp, Comp.inputs]) (by simp [Instr.ports])

theorem mux4way16 (in0 in1 in2 in3 : Bus16) (sel : Bus 2) : Statement (.mux4way16 in0 in1 in2 in3 sel) :=
  of_ports (by simp [Instr.ports, Instr.comp, Comp.inputs]) (by simp [Instr.ports])

theorem mux8way16 (in0 in1 in2 in3 in4 in5 in6 in7 : Bus16) (sel : Bus 3) : Statement (.mux8way16 in0 in1 in2 in3 in4 in5 in6 in7 sel) :=
  of_ports (by simp [Instr.ports, Instr.comp, Comp.inputs]) (by simp [Instr.ports])

theorem dmux4way (inp : Signal) (sel : Bus 2) : Statement (.dmux4way inp sel) :=
  of_ports (by simp [Instr.ports, Instr.comp, Comp.inputs]) (by simp [Instr.ports])

theorem dmux8way (inp : Signal) (sel : Bus 3) : Statement (.dmux8way inp sel) :=
  of_ports (by simp [Instr.ports, Instr.comp, Comp.inputs]) (by simp [Instr.ports])

theorem halfadd (a b : Signal) : Statement (.halfadd a b) :=
  of_ports (by simp [Instr.ports, Instr.comp, Comp.inputs]) (by simp [Instr.ports])

theorem fulladd (a b c : Signal) : Statement (.fulladd a b c) :=
  of_ports (by simp [Instr.ports, Instr.comp, Comp.inputs]) (by simp [Instr.ports])

theorem add16 (a b : Bus16) : Statement (.add16 a b) :=
  of_ports (by simp [Instr.ports, Instr.comp, Comp.inputs]) (by simp [Instr.ports])

theorem inc16 (a : Bus16) : Statement (.inc16 a) :=
  of_ports (by simp [Instr.ports, Instr.comp, Comp.inputs]) (by simp [Instr.ports])

theorem alu (x y : Bus16) (zx nx zy ny f no : Signal) : Statement (.alu x y zx nx zy ny f no) :=
  of_ports (by simp [Instr.ports, Instr.comp, Comp.inputs]) (by simp [Instr.ports])

theorem latch (n : Ident) (inp : Signal) : Statement (.latch n inp) :=
  of_ports (by simp [Instr.ports, Instr.comp, Comp.inputs]) (by simp [Instr.ports])

theorem bit (n : Ident) (inp load : Signal) : Statement (.bit n inp load) :=
  of_ports (by simp [Instr.ports, Instr.comp, Comp.inputs]) (by simp [Instr.ports])

theorem register (n : Ident) (inp : Bus16) (load : Signal) : Statement (.register n inp load) :=
  of_ports (by simp [Instr.ports, Instr.comp, Comp.inputs]) (by simp [Instr.ports])

theorem ram8 (n : Ident) (inp : Bus16) (address : Bus 3) (load : Signal) : Statement (.ram8 n inp address load) :=
  of_ports (by simp [Instr.ports, Instr.comp, Comp.inputs]) (by simp [Instr.ports])

theorem ram64 (n : Ident) (inp : Bus16) (address : Bus 6) (load : Signal) : Statement (.ram64 n inp address load) :=
  of_ports (by simp [Instr.ports, Instr.comp, Comp.inputs]) (by simp [Instr.ports])

theorem ram512 (n : Ident) (inp : Bus16) (address : Bus 9) (load : Signal) : Statement (.ram512 n inp address load) :=
  of_ports (by simp [Instr.ports, Instr.comp, Comp.inputs]) (by simp [Instr.ports])

theorem ram4k (n : Ident) (inp : Bus16) (address : Bus 12) (load : Signal) : Statement (.ram4k n inp address load) :=
  of_ports (by simp [Instr.ports, Instr.comp, Comp.inputs]) (by simp [Instr.ports])

theorem ram16k (n : Ident) (inp : Bus16) (address : Bus 14) (load : Signal) : Statement (.ram16k n inp address load) :=
  of_ports (by simp [Instr.ports, Instr.comp, Comp.inputs]) (by simp [Instr.ports])

theorem pcReset (n : Ident) (inp : Bus16) (increment load : Signal) : Statement (.pcReset n inp increment load) :=
  of_ports (by simp [Instr.ports, Instr.comp, Comp.inputs]) (by simp [Instr.ports])

theorem pcLoad (n : Ident) (inp : Bus16) (increment : Signal) : Statement (.pcLoad n inp increment) :=
  of_ports (by simp [Instr.ports, Instr.comp, Comp.inputs]) (by simp [Instr.ports])

theorem pcInc (n : Ident) (inp : Bus16) : Statement (.pcInc n inp) :=
  of_ports (by simp [Instr.ports, Instr.comp, Comp.inputs]) (by simp [Instr.ports])

theorem pcHold (n : Ident) (inp : Bus16) : Statement (.pcHold n inp) :=
  of_ports (by simp [Instr.ports, Instr.comp, Comp.inputs]) (by simp [Instr.ports])

end Sys2Proof.Laws.EncodedPortsFit
end

