-- ==== Sys2Proof/Laws/Wiring.lean ====
section
/-! SUPPORT. What a passed check gives, and what a list of evaluations gives when all of them succeed. -/

namespace Sys2Proof

/-- Where every part has a result, so has the list, in order. -/
theorem Machine.collect_ok {ε α β : Type} (f : β → Except (List ε) α) {l : List β} {as : List α}
    (h : Machine.collect (l.map f) = .ok as) : List.Forall₂ (fun b a => f b = .ok a) l as := by
  induction l generalizing as with
  | nil => simp [Machine.collect] at h; subst h; exact .nil
  | cons b l ih =>
    simp only [List.map_cons] at h
    cases hb : f b with
    | error e => rw [hb] at h; simp only [Machine.collect] at h; split at h <;> cases h
    | ok a =>
      rw [hb] at h; simp only [Machine.collect] at h
      split at h
      · next as' h' => cases h; exact .cons hb (ih h')
      · cases h

/-- Where there is no first error, every part has a result. -/
theorem firstError_ok {ε α β : Type} (f : β → Except ε α) {l : List β} {as : List α}
    (h : firstError (l.map f) = .ok as) : ∀ b ∈ l, ∃ a, f b = .ok a := by
  induction l generalizing as with
  | nil => simp
  | cons b l ih =>
    simp only [List.map_cons] at h
    cases hb : f b with
    | error e => rw [hb] at h; simp only [firstError] at h; cases h
    | ok a =>
      rw [hb] at h; simp only [firstError] at h
      split at h
      · next as' h' =>
        intro c hc
        rcases List.mem_cons.mp hc with rfl | hc
        · exact ⟨a, hb⟩
        · exact ih h' c hc
      · cases h

theorem firstRepeat_nodup {l : List Ident} (h : firstRepeat l = none) : l.Nodup := by
  induction l with
  | nil => simp
  | cons a l ih =>
    simp only [firstRepeat] at h
    split at h
    · cases h
    · next hc => simp at hc; exact List.nodup_cons.mpr ⟨hc, ih h⟩

/-- What a well-formed wiring is known to satisfy. -/
structure System.Checked (sys : System) : Prop where
  passed : ∃ u, sys.check = .ok u
  names : sys.names.Nodup
  driveNames : (sys.drives.map DriveDecl.name).Nodup
  insts : ∀ d ∈ sys.insts, ∃ u, sys.checkInst d = .ok u
  drives : ∀ d ∈ sys.drives, ∃ u, sys.checkDrive d = .ok u
  nets : ∀ d ∈ sys.nets, ∃ u, sys.checkNet d = .ok u

theorem System.checked {sys : System} (h : sys.WellFormed = true) : sys.Checked := by
  simp only [System.WellFormed] at h
  split at h
  · next u e =>
    have hp : ∃ u, sys.check = .ok u := ⟨u, e⟩
    simp only [System.check] at e
    split at e; · cases e
    next h1 =>
    split at e; · cases e
    next h2 =>
    split at e; · cases e
    next x h3 =>
    split at e; · cases e
    next x h4 =>
    split at e; · cases e
    next x h5 =>
    exact ⟨hp, firstRepeat_nodup h1, firstRepeat_nodup h2, firstError_ok _ h3, firstError_ok _ h4, firstError_ok _ h5⟩
  · simp at h

/-- A first error is the error of some part. -/
theorem firstError_error {ε α β : Type} (f : β → Except ε α) {l : List β} {e : ε}
    (h : firstError (l.map f) = .error e) : ∃ b ∈ l, f b = .error e := by
  induction l with
  | nil => simp [firstError] at h
  | cons b l ih =>
    simp only [List.map_cons] at h
    cases hb : f b with
    | error e' => rw [hb] at h; simp [firstError] at h; subst h; exact ⟨b, by simp, hb⟩
    | ok a =>
      rw [hb] at h; simp only [firstError] at h
      split at h
      · cases h
      · next e' h' => cases h; obtain ⟨c, hc, hf⟩ := ih h'; exact ⟨c, by simp [hc], hf⟩

theorem needOne_ok {r : Except ScriptError (List Port)} {u : Unit} (h : needOne r = .ok u) : ∃ p, r = .ok [p] := by
  match r, h with
  | .ok [p], _ => exact ⟨p, rfl⟩

theorem needOne_loop {r : Except ScriptError (List Port)} (h : needOne r = .error .combinationalLoop) :
    r = .error .combinationalLoop := by
  match r, h with
  | .error e, h => simpa [needOne] using h
  | .ok [], h => simp [needOne] at h
  | .ok (_ :: _ :: _), h => simp [needOne] at h

/-- An expression whose ports are found has found, with one unit of fuel less, those of everything it needs. -/
theorem System.portsOf_ok {sys : System} {fuel : Nat} {e : Expr} {ps : List Port}
    (h : sys.portsOf (fuel + 1) e = .ok ps) {e' : Expr} (hd : DependsOn sys e e') :
    ∃ ps', sys.portsOf fuel e' = .ok ps' := by
  have one {r : Except ScriptError (List Port)} {u : Unit} (hr : needOne r = .ok u) : ∃ ps', r = .ok ps' :=
    let ⟨p, hp⟩ := needOne_ok hr
    ⟨[p], hp⟩
  cases hd with
  | net h1 h2 => simp only [System.portsOf, h1, h2] at h; exact ⟨_, by simpa using h⟩
  | netPort h1 h2 =>
    simp only [System.portsOf, h1, h2] at h
    split at h; · cases h
    next ps' hp => exact ⟨_, hp⟩
  | address h1 h2 h3 =>
    simp only [System.portsOf, h1, h2, h3] at h
    split at h; · cases h
    split at h
    · next hn => exact one hn
    · cases h
  | operand hm =>
    simp only [System.portsOf] at h
    split at h; · cases h
    split at h; · cases h
    split at h
    · next hn => obtain ⟨u, hu⟩ := firstError_ok _ hn _ hm; exact one hu
    · cases h
  | aluX =>
    simp only [System.portsOf] at h
    split at h
    · next hx _ => exact one hx
    · cases h
    · cases h
  | aluY =>
    simp only [System.portsOf] at h
    split at h
    · next _ hy => exact one hy
    · cases h
    · cases h
  | whole =>
    simp only [System.portsOf] at h
    split at h; · cases h
    split at h
    · next hn => exact one hn
    · cases h

/-- An expression refused as a loop needs one that is, with one unit of fuel less. -/
theorem System.portsOf_loop {sys : System} {fuel : Nat} {e : Expr}
    (h : sys.portsOf (fuel + 1) e = .error .combinationalLoop) :
    ∃ e', DependsOn sys e e' ∧ sys.portsOf fuel e' = .error .combinationalLoop := by
  cases e with
  | lit v => simp [System.portsOf] at h
  | name n =>
    simp only [System.portsOf] at h
    split at h; · cases h
    next hi =>
    split at h
    · next e' he => exact ⟨e', .net (by simpa using hi) he, h⟩
    · cases h
  | port n p =>
    simp only [System.portsOf] at h
    split at h
    · next c hc =>
      split at h; · cases h
      split at h; · cases h
      next z hz =>
      split at h; · cases h
      next e' he =>
      split at h; · cases h
      next x hx => cases h; exact ⟨e', .address hc hz he, needOne_loop hx⟩
    · next hc =>
      split at h; · cases h
      next e' he =>
      split at h
      · next x hx => cases h; exact ⟨e', .netPort hc he, hx⟩
      · split at h <;> cases h
  | op c args =>
    simp only [System.portsOf] at h
    split at h; · cases h
    split at h; · cases h
    split at h; · cases h
    next x hx => cases h; obtain ⟨a, ha, ha'⟩ := firstError_error _ hx; exact ⟨a, .operand ha, needOne_loop ha'⟩
  | alu l x y =>
    simp only [System.portsOf] at h
    split at h
    · cases h
    · next hx => cases h; exact ⟨x, .aluX, needOne_loop hx⟩
    · next hy => cases h; exact ⟨y, .aluY, needOne_loop hy⟩
  | slice e p q =>
    simp only [System.portsOf] at h
    split at h; · cases h
    split at h; · cases h
    next x hx => cases h; exact ⟨e, .whole, needOne_loop hx⟩

/-- Everything that makes one evaluation succeed: all its inputs have values, and these decode to the operation. -/
theorem Machine.evaluation_ok {own : PortError → Machine.EvalError} {c : Comp} {n : Ident}
    {ins : List (Except (List Machine.EvalError) RawBus)} {i : Instr} (h : Machine.evaluation own c n ins = .ok i) :
    ∃ vs, Machine.collect ins = .ok vs ∧ decode ⟨c, n, vs⟩ = .ok i := by
  simp only [Machine.evaluation] at h
  split at h
  · next vs hv =>
    split at h
    · cases h
    · next j hj => cases h; exact ⟨vs, hv, hj⟩
  · split at h <;> cases h

end Sys2Proof
end

