-- ==== Sys2Proof/Tests/Slice0.lean ====
section
/-! SUPPORT. The model's own tests. Every expected value is from 95_test_vectors.md or worked by hand from the rule
named; the words of the decode tests are written out from the formats of R61 and R64. -/

namespace Sys2Proof.Tests.Slice0

open Sys2Proof Sys2Proof.Machine

/-! ### Helpers -/

/-- A view of the next state, if there is one. -/
def after {α : Type} (view : State → α) : Host.Outcome State Fault Refusal → Option α
  | .next t => some (view t)
  | .fault _ | .refused _ => none

/-- What a combinational operation returned from the state after reset. -/
def outputsAfter (i : Instr) : Option (List (Port × List Signal)) :=
  after (fun t => t.outputs.map fun o => (o.port, o.value)) (exec i State.reset)

/-- What one of the operation's outputs carries, as a number. -/
def valueAfter (i : Instr) (s : State) : Option (List Nat) :=
  after (fun t => t.outputs.map fun o => RawBus.value (rawOf o.value)) (exec i s)

/-- The refusal of an outcome. -/
def refusalOf : Host.Outcome State Fault Refusal → Option Refusal
  | .refused r => some r
  | .next _ | .fault _ => none

/-- The fault of an outcome. -/
def faultOf : Host.Outcome State Fault Refusal → Option Fault
  | .fault r => some r
  | .next _ | .refused _ => none

/-- What a script leaves: a view of the state after its construction and its rows. -/
def runScript {α : Type} (view : State → α) (k : Nat) (sc : Script) : Option α :=
  after view (Host.Core.run Sys2Proof.core k (scriptStart sc))

/-- The error of a check. -/
def errorOf {α : Type} : Except ScriptError α → Option ScriptError
  | .error e => some e
  | .ok _ => none

/-- 0x1234, position 0 first. -/
def w1234 : RawBus := [0, 0, 0, 1, 0, 0, 1, 0, 0, 0, 1, 1, 0, 1, 0, 0]

/-- 0xABCD, position 0 first. -/
def wABCD : RawBus := [1, 0, 1, 0, 1, 0, 1, 1, 1, 1, 0, 0, 1, 1, 0, 1]

/-- 0x0001, position 0 first. -/
def w0001 : RawBus := [0, 0, 0, 0, 0, 0, 0, 0, 0, 0, 0, 0, 0, 0, 0, 1]

/-- 0x8000, position 0 first. -/
def w8000 : RawBus := [1, 0, 0, 0, 0, 0, 0, 0, 0, 0, 0, 0, 0, 0, 0, 0]

/-! ### Decoding: one word for each constructor -/

theorem test_decode_nand : decode ⟨.nand, 0, [[0], [1]]⟩ = .ok (.nand false true) := rfl
theorem test_decode_not : decode ⟨.not, 0, [[1]]⟩ = .ok (.not true) := rfl
theorem test_decode_and : decode ⟨.and, 0, [[1], [0]]⟩ = .ok (.and true false) := rfl
theorem test_decode_or : decode ⟨.or, 0, [[0], [1]]⟩ = .ok (.or false true) := rfl
theorem test_decode_xor : decode ⟨.xor, 0, [[1], [0]]⟩ = .ok (.xor true false) := rfl
theorem test_decode_mux : decode ⟨.mux, 0, [[0], [1], [1]]⟩ = .ok (.mux false true true) := rfl
theorem test_decode_dmux : decode ⟨.dmux, 0, [[1], [0]]⟩ = .ok (.dmux true false) := rfl
theorem test_decode_not16 : decode ⟨.not16, 0, [w1234]⟩ = .ok (.not16 0x1234#16) := rfl
theorem test_decode_and16 : decode ⟨.and16, 0, [w1234, wABCD]⟩ = .ok (.and16 0x1234#16 0xABCD#16) := rfl
theorem test_decode_or16 : decode ⟨.or16, 0, [wABCD, w1234]⟩ = .ok (.or16 0xABCD#16 0x1234#16) := rfl
theorem test_decode_mux16 : decode ⟨.mux16, 0, [w1234, wABCD, [1]]⟩ = .ok (.mux16 0x1234#16 0xABCD#16 true) := rfl
theorem test_decode_or8way : decode ⟨.or8way, 0, [[0, 0, 0, 1, 0, 0, 0, 0]]⟩ = .ok (.or8way 0b00010000#8) := rfl
theorem test_decode_mux4way16 : decode ⟨.mux4way16, 0, [w1234, wABCD, w0001, w8000, [1, 0]]⟩ =
    .ok (.mux4way16 0x1234#16 0xABCD#16 0x0001#16 0x8000#16 0b10#2) := rfl
theorem test_decode_mux8way16 :
    decode ⟨.mux8way16, 0, [w1234, wABCD, w0001, w8000, w8000, w0001, wABCD, w1234, [1, 1, 0]]⟩ =
    .ok (.mux8way16 0x1234#16 0xABCD#16 0x0001#16 0x8000#16 0x8000#16 0x0001#16 0xABCD#16 0x1234#16 0b110#3) := rfl
theorem test_decode_dmux4way : decode ⟨.dmux4way, 0, [[1], [0, 1]]⟩ = .ok (.dmux4way true 0b01#2) := rfl
theorem test_decode_dmux8way : decode ⟨.dmux8way, 0, [[1], [0, 1, 1]]⟩ = .ok (.dmux8way true 0b011#3) := rfl
theorem test_decode_halfadd : decode ⟨.halfadd, 0, [[1], [0]]⟩ = .ok (.halfadd true false) := rfl
theorem test_decode_fulladd : decode ⟨.fulladd, 0, [[1], [0], [1]]⟩ = .ok (.fulladd true false true) := rfl
theorem test_decode_add16 : decode ⟨.add16, 0, [w1234, w0001]⟩ = .ok (.add16 0x1234#16 0x0001#16) := rfl
theorem test_decode_inc16 : decode ⟨.inc16, 0, [wABCD]⟩ = .ok (.inc16 0xABCD#16) := rfl
theorem test_decode_alu : decode ⟨.alu, 0, [w1234, wABCD, [0], [1], [0], [0], [1], [1]]⟩ =
    .ok (.alu 0x1234#16 0xABCD#16 false true false false true true) := rfl
theorem test_decode_latch : decode ⟨.latch, 4, [[1]]⟩ = .ok (.latch 4 true) := rfl
theorem test_decode_bit : decode ⟨.bit, 4, [[1], [0]]⟩ = .ok (.bit 4 true false) := rfl
theorem test_decode_register : decode ⟨.register, 4, [w1234, [1]]⟩ = .ok (.register 4 0x1234#16 true) := rfl
theorem test_decode_ram8 : decode ⟨.ram8, 4, [w1234, [1, 0, 1], [1]]⟩ = .ok (.ram8 4 0x1234#16 0b101#3 true) := rfl
theorem test_decode_ram64 : decode ⟨.ram64, 4, [w1234, [1, 0, 1, 0, 1, 1], [0]]⟩ =
    .ok (.ram64 4 0x1234#16 0b101011#6 false) := rfl
theorem test_decode_ram512 : decode ⟨.ram512, 4, [w1234, [0, 1, 0, 0, 0, 0, 0, 0, 1], [1]]⟩ =
    .ok (.ram512 4 0x1234#16 0b010000001#9 true) := rfl
theorem test_decode_ram4k : decode ⟨.ram4k, 4, [w1234, [1, 1, 1, 0, 0, 0, 0, 0, 0, 0, 0, 0], [1]]⟩ =
    .ok (.ram4k 4 0x1234#16 0b111000000000#12 true) := rfl
theorem test_decode_ram16k : decode ⟨.ram16k, 4, [w1234, [1, 1, 0, 0, 0, 0, 0, 0, 0, 0, 0, 0, 0, 1], [1]]⟩ =
    .ok (.ram16k 4 0x1234#16 0b11000000000001#14 true) := rfl
theorem test_decode_pcReset : decode ⟨.pc, 4, [w1234, [0], [1], [1]]⟩ = .ok (.pcReset 4 0x1234#16 false true) := rfl
theorem test_decode_pcLoad : decode ⟨.pc, 4, [w1234, [1], [1], [0]]⟩ = .ok (.pcLoad 4 0x1234#16 true) := rfl
theorem test_decode_pcInc : decode ⟨.pc, 4, [w1234, [1], [0], [0]]⟩ = .ok (.pcInc 4 0x1234#16) := rfl
theorem test_decode_pcHold : decode ⟨.pc, 4, [w1234, [0], [0], [0]]⟩ = .ok (.pcHold 4 0x1234#16) := rfl

/-- The four PC rows of spec/opcode_table.json, by the lowest word of each. -/
theorem test_decode_table : decodeTableWord 8 4 = some (.pcReset 0 (0#16) false false) ∧
    decodeTableWord 8 1 = some (.pcLoad 0 (0#16) false) ∧ decodeTableWord 8 2 = some (.pcInc 0 (0#16)) ∧
    decodeTableWord 8 0 = some (.pcHold 0 (0#16)) ∧ decodeTableWord 8 8 = none := ⟨rfl, rfl, rfl, rfl, rfl⟩

/-! ### The encoder -/

theorem test_encode_ram8 : encode (.ram8 4 0x1234#16 0b101#3 true) = ⟨.ram8, 4, [w1234, [1, 0, 1], [1]]⟩ := by
  decide +kernel

/-! ### Well-formedness of port values: an ill-formed term for each check -/

theorem test_wf_accepts : (⟨.register, 0, [w1234, [1]]⟩ : RawOp).WellFormed := by decide
theorem test_wf_width : ¬(⟨.register, 0, [List.replicate 15 0, [1]]⟩ : RawOp).WellFormed := by decide
theorem test_wf_signal : ¬(⟨.bit, 0, [[1], [2]]⟩ : RawOp).WellFormed := by decide
theorem test_wf_count : ¬(⟨.bit, 0, [[1]]⟩ : RawOp).WellFormed := by decide

/-- 95_test_vectors.md section 2.6: a bus of 15 positions. -/
theorem test_width_error : decode ⟨.register, 0, [List.replicate 15 0, [1]]⟩ =
    .error (.widthMismatchError .register .inp 16 15) := rfl

/-- 95_test_vectors.md section 2.6: a load of 2. -/
theorem test_signal_error : decode ⟨.bit, 0, [[0], [2]]⟩ = .error (.invalidSignalError .bit .load) := rfl

/-- 95_test_vectors.md section 2.6: both at once report the width (decision D8). -/
theorem test_width_before_signal : decode ⟨.register, 0, [List.replicate 15 0, [2]]⟩ =
    .error (.widthMismatchError .register .inp 16 15) := rfl

/-- 95_test_vectors.md section 2.7: no truncation of a RAM16K address. -/
theorem test_address_width : decode ⟨.ram16k, 0, [w1234, List.replicate 15 0, [1]]⟩ =
    .error (.widthMismatchError .ram16k .address 14 15) := rfl

/-- R200: an ignored input counts too. -/
theorem test_ignored_signal : decode ⟨.pc, 0, [2 :: List.replicate 15 0, [0], [0], [1]]⟩ =
    .error (.invalidSignalError .pc .inp) := rfl

/-- Log entry 30: a bit port counts with width 1. -/
theorem test_bit_port_width : decode ⟨.nand, 0, [[1, 0], [1]]⟩ = .error (.widthMismatchError .nand .a 1 2) := rfl

theorem test_count_error : decode ⟨.bit, 0, [[1]]⟩ = .error (.inputCountError .bit 2 1) := rfl

/-! ### Well-formedness of wirings: an ill-formed term for each check -/

/-- Program P4 of 95_test_vectors.md: registers 0 and 1 in a chain, input 2. -/
def shift : System :=
  { insts := [⟨0, .register⟩, ⟨1, .register⟩], nets := [], inputs := [2],
    drives := [⟨0, [(.inp, .name 2), (.load, .lit [true])]⟩, ⟨1, [(.inp, .port 0 .out), (.load, .lit [true])]⟩] }

/-- Program P3 of 95_test_vectors.md: PC 0, RAM8 1 and net 2, the ALU on the PC's output and 3. -/
def counter : System :=
  { insts := [⟨0, .pc⟩, ⟨1, .ram8⟩], inputs := [],
    nets := [⟨2, .op .alu (.cons (.port 0 .out) (.cons (.lit (Bus.signals 0x0003#16)) (.cons (.lit [false])
      (.cons (.lit [true]) (.cons (.lit [false]) (.cons (.lit [false]) (.cons (.lit [true])
        (.cons (.lit [true]) .nil))))))))⟩],
    drives := [
      ⟨0, [(.inp, .lit (Bus.signals 0x0000#16)), (.increment, .lit [true]), (.load, .port 2 .zr),
        (.reset, .lit [false])]⟩,
      ⟨1, [(.inp, .port 2 .out), (.address, .slice (.port 0 .out) 13 15), (.load, .lit [true])]⟩] }

theorem test_wiring_accepts : shift.WellFormed = true ∧ counter.WellFormed = true := by decide +kernel

theorem test_wiring_duplicateName :
    errorOf (System.check { shift with inputs := [0] }) = some (.duplicateName 0) := by decide +kernel
theorem test_wiring_drivenTwice :
    errorOf (System.check { shift with drives := shift.drives ++ shift.drives }) = some (.drivenTwice 0) := by
  decide +kernel
theorem test_wiring_notStateful :
    errorOf (System.check { shift with insts := [⟨0, .nand⟩] }) = some (.notStateful 0) := by decide +kernel
theorem test_wiring_undriven_instance :
    errorOf (System.check { shift with drives := [] }) = some (.undriven 0 .inp) := by decide +kernel
theorem test_wiring_driveOfNoInstance :
    errorOf (System.check { shift with drives := shift.drives ++ [⟨9, []⟩] }) = some (.driveOfNoInstance 9) := by
  decide +kernel
theorem test_wiring_badDrive :
    errorOf (System.check ⟨[⟨0, .latch⟩], [], [⟨0, [(.inp, .lit [true]), (.load, .lit [true])]⟩], []⟩) =
      some (.badDrive 0 .load) := by decide +kernel
theorem test_wiring_badDrive_twice :
    errorOf (System.check ⟨[⟨0, .latch⟩], [], [⟨0, [(.inp, .lit [true]), (.inp, .lit [true])]⟩], []⟩) =
      some (.badDrive 0 .inp) := by decide +kernel
theorem test_wiring_undriven_port :
    errorOf (System.check ⟨[⟨0, .bit⟩], [], [⟨0, [(.inp, .lit [true])]⟩], []⟩) = some (.undriven 0 .load) := by
  decide +kernel
theorem test_wiring_undeclared :
    errorOf (System.check ⟨[], [⟨0, .name 7⟩], [], []⟩) = some (.undeclared 7) := by decide +kernel
theorem test_wiring_noSuchPort :
    errorOf (System.check ⟨[⟨0, .latch⟩], [⟨1, .port 0 .zr⟩], [⟨0, [(.inp, .lit [true])]⟩], []⟩) =
      some (.noSuchPort 0 .zr) := by decide +kernel
theorem test_wiring_noSuchPort_net :
    errorOf (System.check ⟨[], [⟨0, .lit [true]⟩, ⟨1, .port 0 .carry⟩], [], []⟩) = some (.noSuchPort 0 .carry) := by
  decide +kernel
theorem test_wiring_wrongArity :
    errorOf (System.check ⟨[], [⟨0, .op .nand (.cons (.lit [true]) .nil)⟩], [], []⟩) = some (.wrongArity .nand) := by
  decide +kernel
theorem test_wiring_statefulOperator :
    errorOf (System.check ⟨[], [⟨0, .op .latch (.cons (.lit [true]) .nil)⟩], [], []⟩) =
      some (.statefulOperator .latch) := by decide +kernel
theorem test_wiring_severalOutputs :
    errorOf (System.check ⟨[⟨0, .latch⟩],
      [⟨1, .op .halfadd (.cons (.lit [true]) (.cons (.lit [true]) .nil))⟩], [⟨0, [(.inp, .name 1)]⟩], []⟩) =
      some .severalOutputs := by decide +kernel
theorem test_wiring_severalOutputs_operand :
    errorOf (System.check ⟨[],
      [⟨1, .op .not (.cons (.op .halfadd (.cons (.lit [true]) (.cons (.lit [true]) .nil))) .nil)⟩], [], []⟩) =
      some .severalOutputs := by decide +kernel
theorem test_wiring_emptySlice :
    errorOf (System.check ⟨[], [⟨0, .slice (.lit [true, false]) 1 0⟩], [], []⟩) = some (.emptySlice 1 0) := by
  decide +kernel
theorem test_wiring_loop :
    errorOf (System.check ⟨[], [⟨0, .op .not (.cons (.name 1) .nil)⟩, ⟨1, .name 0⟩], [], []⟩) =
      some .combinationalLoop := by decide +kernel

/-- Log entry 31: a net that stands for another's port keeps that port's name. -/
theorem test_wiring_net_port :
    let d : NetDecl := ⟨0, .op .halfadd (.cons (.lit [true]) (.cons (.lit [true]) .nil))⟩
    System.WellFormed ⟨[], [d, ⟨1, .port 0 .carry⟩, ⟨2, .port 1 .carry⟩], [], []⟩ = true ∧
      errorOf (System.check ⟨[], [d, ⟨1, .port 0 .carry⟩, ⟨2, .port 1 .out⟩], [], []⟩) =
        some (.noSuchPort 1 .out) := by decide +kernel

/-- R233: a RAM's address may not depend on that RAM's own output in the same cycle. -/
theorem test_wiring_ram_loop :
    errorOf (System.check ⟨[⟨0, .ram8⟩], [],
      [⟨0, [(.inp, .lit (Bus.signals (0#16))), (.address, .slice (.port 0 .out) 0 2), (.load, .lit [true])]⟩], []⟩) =
      some .combinationalLoop := by decide +kernel

/-- A register's input may depend on its own output: the loop goes through its state (R233). -/
theorem test_wiring_register_feedback :
    System.WellFormed ⟨[⟨0, .register⟩], [],
      [⟨0, [(.inp, .op .inc16 (.cons (.port 0 .out) .nil)), (.load, .lit [true])]⟩], []⟩ = true := by decide +kernel

theorem test_row_inputMissing : errorOf (shift.checkRow ⟨0, []⟩) = some (.inputMissing 2) := by decide +kernel
theorem test_row_inputUnexpected :
    errorOf (shift.checkRow ⟨0, [(2, w0001), (3, w0001)]⟩) = some (.inputUnexpected 3) := by decide +kernel
theorem test_script_numbered : Script.WellFormed ⟨shift, [⟨1, [(2, w0001)]⟩]⟩ = false ∧
    Script.WellFormed ⟨shift, [⟨0, [(2, w0001)]⟩, ⟨1, [(2, w8000)]⟩]⟩ = true := by decide +kernel

/-! ### One step of each operation -/

theorem test_nand : outputsAfter (.nand true true) = some [(.out, [false])] := by decide
theorem test_nand_01 : outputsAfter (.nand false true) = some [(.out, [true])] := by decide
theorem test_not : outputsAfter (.not false) = some [(.out, [true])] := by decide
theorem test_and : outputsAfter (.and true false) = some [(.out, [false])] := by decide
theorem test_or : outputsAfter (.or false true) = some [(.out, [true])] := by decide
theorem test_xor : outputsAfter (.xor true true) = some [(.out, [false])] := by decide
theorem test_xor_01 : outputsAfter (.xor false true) = some [(.out, [true])] := by decide
theorem test_mux : outputsAfter (.mux true false true) = some [(.out, [false])] := by decide
theorem test_mux_sel0 : outputsAfter (.mux true false false) = some [(.out, [true])] := by decide
theorem test_dmux : outputsAfter (.dmux true true) = some [(.a, [false]), (.b, [true])] := by decide

theorem test_not16 : valueAfter (.not16 0x00FF#16) State.reset = some [0xFF00] := by decide +kernel
theorem test_not16_order : valueAfter (.not16 0x8000#16) State.reset = some [0x7FFF] := by decide +kernel
theorem test_and16 : valueAfter (.and16 0xFF00#16 0x0FF0#16) State.reset = some [0x0F00] := by decide +kernel
theorem test_or16 : valueAfter (.or16 0xFF00#16 0x0FF0#16) State.reset = some [0xFFF0] := by decide +kernel
theorem test_mux16 : valueAfter (.mux16 0x1234#16 0xABCD#16 true) State.reset = some [0xABCD] := by decide +kernel
theorem test_or8way : valueAfter (.or8way 0b00010000#8) State.reset = some [1] := by decide +kernel
theorem test_or8way_zero : valueAfter (.or8way 0b00000000#8) State.reset = some [0] := by decide +kernel
theorem test_mux4way16 :
    valueAfter (.mux4way16 0xA000#16 0xA001#16 0xA002#16 0xA003#16 0b10#2) State.reset = some [0xA002] := by
  decide +kernel
theorem test_mux4way16_tree :
    valueAfter (.mux4way16 0xA000#16 0xA001#16 0xA002#16 0xA003#16 0b01#2) State.reset = some [0xA001] := by
  decide +kernel
theorem test_mux8way16 :
    valueAfter (.mux8way16 0xB000#16 0xB001#16 0xB002#16 0xB003#16 0xB004#16 0xB005#16 0xB006#16 0xB007#16 0b110#3)
      State.reset = some [0xB006] := by decide +kernel
theorem test_mux8way16_011 :
    valueAfter (.mux8way16 0xB000#16 0xB001#16 0xB002#16 0xB003#16 0xB004#16 0xB005#16 0xB006#16 0xB007#16 0b011#3)
      State.reset = some [0xB003] := by decide +kernel
theorem test_dmux4way : valueAfter (.dmux4way true 0b01#2) State.reset = some [0, 1, 0, 0] := by decide +kernel
theorem test_dmux8way : valueAfter (.dmux8way true 0b011#3) State.reset = some [0, 0, 0, 1, 0, 0, 0, 0] := by
  decide +kernel
theorem test_dmux8way_100 : valueAfter (.dmux8way true 0b100#3) State.reset = some [0, 0, 0, 0, 1, 0, 0, 0] := by
  decide +kernel
theorem test_halfadd : outputsAfter (.halfadd true true) = some [(.sum, [false]), (.carry, [true])] := by decide
theorem test_fulladd : outputsAfter (.fulladd true false true) = some [(.sum, [false]), (.carry, [true])] := by decide
theorem test_fulladd_111 : outputsAfter (.fulladd true true true) = some [(.sum, [true]), (.carry, [true])] := by
  decide
theorem test_add16 : valueAfter (.add16 0x00FF#16 0x0001#16) State.reset = some [0x0100] := by decide +kernel
theorem test_add16_wrap : valueAfter (.add16 0xFFFF#16 0xFFFF#16) State.reset = some [0xFFFE] := by decide +kernel
theorem test_inc16 : valueAfter (.inc16 0x7FFF#16) State.reset = some [0x8000] := by decide +kernel
theorem test_inc16_wrap : valueAfter (.inc16 0xFFFF#16) State.reset = some [0x0000] := by decide +kernel

/-- x - y, with zr and ng. -/
theorem test_alu_sub : valueAfter (aluUnder 0b010011#6 0x0005#16 0x0003#16) State.reset = some [0x0002, 0, 0] := by
  decide +kernel

/-- A control word that is not a named row. -/
theorem test_alu_unnamed : valueAfter (aluUnder 0b000001#6 0x0005#16 0x0003#16) State.reset = some [0xFFFE, 0, 1] := by
  decide +kernel

theorem test_latch : after (fun t => (t.outputs, t.peekLatch 4)) (exec (.latch 4 true) State.reset) =
    some ([⟨some 4, .out, [false]⟩], true) := by decide
theorem test_latch_second :
    after (fun t => (t.outputs, t.peekLatch 4)) (exec (.latch 4 false) (State.reset.setLatch 4 true)) =
      some ([⟨some 4, .out, [true]⟩], false) := by decide
theorem test_bit_load0 : after (fun t => (t.outputs, t.peekBit 4)) (exec (.bit 4 true false) State.reset) =
    some ([⟨some 4, .out, [false]⟩], false) := by decide
theorem test_bit_load1 : after (fun t => (t.outputs, t.peekBit 4)) (exec (.bit 4 true true) State.reset) =
    some ([⟨some 4, .out, [false]⟩], true) := by decide

/-- Cycle 3 of the REGISTER table of section 2.6: the old word out, the new word in. -/
theorem test_register_load1 :
    after (fun t => (t.peekRegister 4, t.peekRegister 5)) (exec (.register 4 0xFFFF#16 true)
      ((State.reset.setRegister 4 0x1234#16).setRegister 5 0x0007#16)) = some (0xFFFF#16, 0x0007#16) ∧
    valueAfter (.register 4 0xFFFF#16 true) (State.reset.setRegister 4 0x1234#16) = some [0x1234] := by decide +kernel
theorem test_register_load0 :
    after (fun t => t.peekRegister 4) (exec (.register 4 0xFFFF#16 false) (State.reset.setRegister 4 0x1234#16)) =
      some 0x1234#16 := by decide +kernel

theorem test_ram8 : after (fun t => t.peekRam .ram8 4) (exec (.ram8 4 0xBEEF#16 0b011#3 true) State.reset) =
    some [(3, 0xBEEF#16)] := by decide +kernel

/-- Cycle 1 of the RAM64 sequence of section 2.7: a read during a write returns the old word. -/
theorem test_ram64_read_during_write :
    valueAfter (.ram64 4 0x00AA#16 0b101011#6 true) (State.reset.setRam .ram64 4 [(43, 0x0F0F#16)]) = some [0x0F0F] ∧
    after (fun t => t.peekRam .ram64 4) (exec (.ram64 4 0x00AA#16 0b101011#6 true)
      (State.reset.setRam .ram64 4 [(43, 0x0F0F#16)])) = some [(43, 0x00AA#16)] := by decide +kernel

/-- Cycle 3 of that sequence: the same leaf index in another child. -/
theorem test_ram64_other_child :
    valueAfter (.ram64 4 0xFFFF#16 0b011011#6 false) (State.reset.setRam .ram64 4 [(43, 0x00AA#16)]) = some [0x0000] := by
  decide +kernel
theorem test_ram512 : after (fun t => t.peekRam .ram512 4) (exec (.ram512 4 0x0001#16 0b010000001#9 true) State.reset) =
    some [(129, 0x0001#16)] := by decide +kernel
theorem test_ram4k :
    after (fun t => t.peekRam .ram4k 4) (exec (.ram4k 4 0x0001#16 0b111000000000#12 true) State.reset) =
      some [(3584, 0x0001#16)] := by decide +kernel
theorem test_ram16k :
    after (fun t => t.peekRam .ram16k 4) (exec (.ram16k 4 0x0001#16 0b11000000000001#14 true) State.reset) =
      some [(12289, 0x0001#16)] := by decide +kernel

/-- Writing 0x0000 over a word leaves the canonical form of an untouched one. -/
theorem test_ram16k_clear :
    after (fun t => t.peekRam .ram16k 4) (exec (.ram16k 4 0x0000#16 0b11111111111111#14 true)
      (State.reset.setRam .ram16k 4 [(16383, 0x1111#16)])) = some [] := by decide +kernel

theorem test_pcReset : valueAfter (.pcReset 4 0x1234#16 true true) (State.reset.setPc 4 0x000A#16) = some [0x000A] ∧
    after (fun t => t.peekPc 4) (exec (.pcReset 4 0x1234#16 true true) (State.reset.setPc 4 0x000A#16)) =
      some 0x0000#16 := by decide +kernel
theorem test_pcLoad : after (fun t => t.peekPc 4) (exec (.pcLoad 4 0x0100#16 true) (State.reset.setPc 4 0x0005#16)) =
    some 0x0100#16 := by decide +kernel
theorem test_pcInc : after (fun t => t.peekPc 4) (exec (.pcInc 4 0xFFFF#16) (State.reset.setPc 4 0x0041#16)) =
    some 0x0042#16 := by decide +kernel
theorem test_pcInc_wrap : after (fun t => t.peekPc 4) (exec (.pcInc 4 0x0000#16) (State.reset.setPc 4 0xFFFF#16)) =
    some 0x0000#16 := by decide +kernel
theorem test_pcHold : after (fun t => t.peekPc 4) (exec (.pcHold 4 0xFFFF#16) (State.reset.setPc 4 0x1234#16)) =
    some 0x1234#16 := by decide +kernel

/-! ### One step of the machine -/

/-- A machine with a wiring and a request. -/
def asked (sys : System) (h : HostInput) : State := { State.reset with system := sys, pending := [h] }

/-- The state before cycle 3 of program P3: PC 0 holds 3, RAM8 1 the words of cycles 0 to 2. -/
def beforeCycle3 : State :=
  (State.reset.setPc 0 0x0003#16).setRam .ram8 1 [(0, 0xFFFD#16), (1, 0xFFFE#16), (2, 0xFFFF#16)]

/-- Cycle 3 of P3: zr is 1, so load beats increment, and 0x0000 is stored at word 3. -/
theorem test_cycle_P3 :
    after (fun t => (t.peekPc 0, t.peekRam .ram8 1)) (runCycle ⟨3, []⟩
      { beforeCycle3 with system := counter }) =
    some (0x0000#16, [(0, 0xFFFD#16), (1, 0xFFFE#16), (2, 0xFFFF#16)]) := by decide +kernel

/-- What that cycle returned: the PC, the RAM's word 3, and net d with its three outputs. -/
theorem test_cycle_P3_outputs :
    after (fun t => t.outputs.map fun o => (o.source, o.port, RawBus.value (rawOf o.value)))
      (runCycle ⟨3, []⟩ { beforeCycle3 with system := counter }) =
    some [(some 0, .out, 3), (some 1, .out, 0), (some 2, .out, 0), (some 2, .zr, 1), (some 2, .ng, 0)] := by
  decide +kernel

/-- Cycle 1 of P4: B takes A's word from before the edge. -/
theorem test_cycle_P4 :
    after (fun t => (t.peekRegister 0, t.peekRegister 1))
      (runCycle ⟨1, [(2, Bus.raw 0x0002#16)]⟩ { State.reset.setRegister 0 0x0001#16 with system := shift }) =
    some (0x0002#16, 0x0001#16) := by decide +kernel

/-- A script from reset: construction, then the rows; P4's first two cycles. -/
theorem test_script_P4 :
    runScript (fun t => (t.peekRegister 0, t.peekRegister 1)) 3
      ⟨shift, [⟨0, [(2, Bus.raw 0x0001#16)]⟩, ⟨1, [(2, Bus.raw 0x0002#16)]⟩]⟩ =
    some (0x0002#16, 0x0001#16) := by decide +kernel

/-- Decision D7: the whole cycle fails, with the error of every component that got the bad bus. -/
theorem test_cycle_fails :
    faultOf (runCycle ⟨0, [(2, List.replicate 15 0)]⟩ { State.reset with system := shift }) =
      some (.cycleFailed [.widthMismatchError .register .inp 16 15]) := by decide +kernel

/-- A RAM8 whose output net 5 reads, on the inputs v (2), a (3) and w (4). -/
def readRam : System :=
  { insts := [⟨1, .ram8⟩], nets := [⟨5, .port 1 .out⟩], inputs := [2, 3, 4],
    drives := [⟨1, [(.inp, .name 2), (.address, .name 3), (.load, .name 4)]⟩] }

/-- R205: a bad signal in the address and a wrong width elsewhere are one evaluation's, which reports the width only. -/
theorem test_cycle_one_error :
    faultOf (runCycle ⟨0, [(2, List.replicate 15 0), (3, [0, 2, 0]), (4, [1])]⟩ { State.reset with system := readRam }) =
      some (.cycleFailed [.widthMismatchError .ram8 .inp 16 15]) := by decide +kernel

/-- A bad address alone is reported once, though the net has no value either. -/
theorem test_cycle_bad_address :
    faultOf (runCycle ⟨0, [(2, w0001), (3, [0, 2, 0]), (4, [1])]⟩ { State.reset with system := readRam }) =
      some (.cycleFailed [.invalidSignalError .ram8 .address]) := by decide +kernel

/-- The same where the block's own data input needs its output: the load's width is the one error. -/
theorem test_cycle_own_output :
    faultOf (runCycle ⟨0, [(2, w0001), (3, [0, 2, 0]), (4, [1, 1])]⟩ { State.reset with
      system := { readRam with
        drives := [⟨1, [(.inp, .port 1 .out), (.address, .name 3), (.load, .name 4)]⟩] } }) =
      some (.cycleFailed [.widthMismatchError .ram8 .load 1 2]) := by decide +kernel

theorem test_cycle_slice :
    refusalOf (runCycle ⟨0, []⟩ { State.reset with system := ⟨[], [⟨0, .slice (.lit [true]) 0 1⟩], [], []⟩ }) =
      some (.scriptError (.sliceOutOfRange 1 1)) := by decide +kernel

theorem test_step_refuses_error :
    refusalOf (step (asked System.empty (.operation ⟨.bit, 0, [[0], [2]]⟩))) =
      some (.portError (.invalidSignalError .bit .load)) := by decide +kernel

theorem test_step_refuses_wired :
    refusalOf (step (asked shift (.operation ⟨.register, 0, [w0001, [1]]⟩))) =
      some (.steppedOutsideCycle .register 0) := by decide +kernel

theorem test_fetch_word : after (fun t => t.peekPc 0) (step (State.reset.withFetchWord 8 2)) = some 0x0001#16 := by
  decide +kernel

/-! ### Every hypothesis of the statements is met -/

theorem witness_RamTreeRefinesFlat :
    (RamTree.eight (.reg (0#16)) (.reg (0#16)) (.reg (0#16)) (.reg 0xBEEF#16) (.reg (0#16)) (.reg (0#16)) (.reg (0#16))
      (.reg 0x0007#16)).hasLevels (ramLevels .ram8) = true ∧
    (RamTree.eight (.reg (0#16)) (.reg (0#16)) (.reg (0#16)) (.reg 0xBEEF#16) (.reg (0#16)) (.reg (0#16)) (.reg (0#16))
      (.reg 0x0007#16)).holds [(3, 0xBEEF#16), (7, 0x0007#16)] := by
  refine ⟨by decide, fun a h => ?_⟩
  have h : a < 8 := h
  interval_cases a <;> rfl

/-- One control word for each clause: reset, load beating increment, increment, hold. -/
theorem witness_PcControlWords :
    (7 < 8 ∧ 7 / 4 = 1) ∧ (3 < 8 ∧ ¬3 / 4 = 1 ∧ 3 % 2 = 1) ∧ (2 < 8 ∧ ¬2 / 4 = 1 ∧ ¬2 % 2 = 1) ∧
      (0 < 8 ∧ ¬0 / 4 = 1 ∧ ¬0 % 2 = 1 ∧ ¬0 = 2) := by decide

theorem witness_EncodeDecode :
    decode ⟨.ram8, 4, [w1234, [1, 0, 1], [1]]⟩ = .ok (.ram8 4 0x1234#16 0b101#3 true) ∧
      Comp.stateful .ram8 = true := ⟨rfl, rfl⟩

theorem witness_WidthMismatchComesFirst :
    let op : RawOp := ⟨.ram8, 0, [w1234, [0, 1, 0, 0], [2]]⟩
    op.ports.length = op.comp.inputs.length ∧ op.ports.map List.length ≠ op.comp.inputs.map Prod.snd ∧
      (asked System.empty (.operation op)).pending = .operation op :: [] := by decide

theorem witness_InvalidSignalIsReported :
    let op : RawOp := ⟨.ram8, 0, [w1234, [0, 1, 0], [2]]⟩
    op.ports.map List.length = op.comp.inputs.map Prod.snd ∧ (∃ v ∈ op.ports, ∃ x ∈ v, ¬x < 2) ∧
      (asked System.empty (.operation op)).pending = .operation op :: [] := by decide

theorem witness_ErrorIsReportedToHost :
    (asked System.empty (.operation ⟨.bit, 0, [[1]]⟩)).pending = .operation ⟨.bit, 0, [[1]]⟩ :: [] ∧
      decode ⟨.bit, 0, [[1]]⟩ = .error (.inputCountError .bit 2 1) := ⟨rfl, rfl⟩

theorem witness_CombinationalPurity : (Instr.comp (.alu (5#16) (3#16) false true false false true true)).stateful = false := by
  decide

theorem witness_StateIsOwned : (Instr.comp (.latch 4 true)).stateful = true ∧
    ∃ t, exec (.latch 4 true) State.reset = .next t := ⟨rfl, _, rfl⟩

theorem witness_OutputsIgnoreOtherInputs :
    let i : Instr := .pcLoad 4 (7#16) true
    let j : Instr := .pcHold 4 (0#16)
    i.comp.stateful = true ∧ i.comp.ramSize? = none ∧ i.comp = j.comp ∧ i.inst = j.inst := by decide

theorem witness_CellsStartZeroAndPersist :
    (∃ t, exec (.latch 4 true) State.reset = .next t) ∧
      ¬((Instr.latch 4 true).comp = .latch ∧ (Instr.latch 4 true).inst = 5) := ⟨⟨_, rfl⟩, by decide⟩

theorem witness_ConstructionMakesAnew :
    (asked System.empty (.construct shift)).pending = .construct shift :: [] ∧ shift.WellFormed = true ∧
      (⟨0, .register⟩ : InstDecl) ∈ shift.insts ∧ (⟨7, .pc⟩ : InstDecl) ∉ shift.insts := by decide +kernel

theorem witness_StepRunsDecodedOperation :
    let op : RawOp := ⟨.register, 4, [w1234, [1]]⟩
    (asked shift (.operation op)).pending = .operation op :: [] ∧
      decode op = .ok (.register 4 0x1234#16 true) ∧ (⟨4, .register⟩ : InstDecl) ∉ (asked shift (.operation op)).system.insts :=
  ⟨rfl, rfl, by decide⟩

theorem witness_FetchWordRunsNext : decodeTableWord 8 3 = some (.pcLoad 0 (0#16) true) := rfl

theorem witness_NoRequestNoChange : State.reset.pending = [] := rfl

/-- The invariant's premises for each kind of request: none, an operation, a construction, a cycle. -/
theorem witness_StepKeepsInvariant :
    Inv (asked shift (.cycle ⟨0, [(2, w0001)]⟩)) ∧
      (∃ t, step (asked shift (.cycle ⟨0, [(2, w0001)]⟩)) = .next t) ∧
      (∃ t, step (asked shift (.construct counter)) = .next t) ∧
      (∃ t, step (asked shift (.operation ⟨.latch, 0, [[1]]⟩)) = .next t) := by
  refine ⟨⟨?_, by decide +kernel⟩, ⟨_, rfl⟩, ⟨_, rfl⟩, ⟨_, rfl⟩⟩
  refine ⟨⟨.nil, by simp [asked, State.reset]⟩, ⟨.nil, by simp [asked, State.reset]⟩,
    ⟨.nil, by simp [asked, State.reset]⟩, ⟨.nil, by simp [asked, State.reset]⟩, fun z => ?_⟩
  cases z <;> exact ⟨⟨.nil, by simp [State.rams, asked, State.reset]⟩, by simp [State.rams, asked, State.reset]⟩

/-- The shift register wired and ready. -/
def ready : State := { State.reset with system := shift }

theorem witness_CycleStepsEachInstanceOnce :
    ready.system.WellFormed = true ∧ ∃ t, runCycle ⟨0, [(2, w0001)]⟩ ready = .next t := ⟨by decide +kernel, _, rfl⟩

theorem witness_CycleIsSimultaneous :
    ready.system.WellFormed = true ∧ ∃ t, runCycle ⟨0, [(2, w0001)]⟩ ready = .next t := ⟨by decide +kernel, _, rfl⟩

theorem witness_StepOrderIsIrrelevant :
    let is : List Instr := [.register 0 (1#16) true, .register 1 (2#16) true]
    let is' : List Instr := [.register 1 (2#16) true, .register 0 (1#16) true]
    State.reset.wf ∧ is.Perm is' ∧ (∀ i ∈ is, i.comp.stateful = true) ∧
      is.Pairwise (fun i j => ¬(i.comp = j.comp ∧ i.inst = j.inst)) ∧
      (∃ t, runAll is State.reset [] = .next t) ∧ ∃ t, runAll is' State.reset [] = .next t := by
  refine ⟨?_, .swap .., by decide, by decide, ⟨_, rfl⟩, _, rfl⟩
  refine ⟨⟨.nil, by simp [State.reset]⟩, ⟨.nil, by simp [State.reset]⟩,
    ⟨.nil, by simp [State.reset]⟩, ⟨.nil, by simp [State.reset]⟩, fun z => ?_⟩
  cases z <;> exact ⟨⟨.nil, by simp [State.rams, State.reset]⟩, by simp [State.rams, State.reset]⟩

theorem witness_FailedCycleStepsNothing :
    (⟨0, .register⟩ : InstDecl) ∈ ready.system.insts ∧
      ∃ es, instanceOp ready ⟨0, [(2, List.replicate 15 0)]⟩ ⟨0, .register⟩ = .error es := ⟨by decide, _, rfl⟩

/-- Each of the three outcomes: a next state, a failed cycle, a sub-bus out of range. -/
theorem witness_WellFormedCycleHasMeaning :
    let sliced : State := { State.reset with system := ⟨[], [⟨0, .slice (.lit [true]) 0 1⟩], [], []⟩ }
    (ready.system.WellFormed = true ∧ Row.fits ready.system ⟨0, [(2, w0001)]⟩ = true ∧
      ∃ t, runCycle ⟨0, [(2, w0001)]⟩ ready = .next t) ∧
    (Row.fits ready.system ⟨0, [(2, [])]⟩ = true ∧
      ∃ es, es ≠ [] ∧ runCycle ⟨0, [(2, [])]⟩ ready = .fault (.cycleFailed es)) ∧
    (sliced.system.WellFormed = true ∧ Row.fits sliced.system ⟨0, []⟩ = true ∧
      runCycle ⟨0, []⟩ sliced = .refused (.scriptError (.sliceOutOfRange 1 1))) :=
  ⟨⟨by decide +kernel, by decide +kernel, _, rfl⟩,
    ⟨by decide +kernel, [.widthMismatchError .register .inp 16 0], by decide, rfl⟩,
    ⟨by decide +kernel, by decide +kernel, rfl⟩⟩

/-- A loop of each kind: through an operator and two nets, a net's port, a sub-bus, and a RAM's own address. -/
theorem witness_DependencyLoopRefused :
    HasLoop ⟨[], [⟨0, .op .not (.cons (.name 1) .nil)⟩, ⟨1, .name 0⟩], [], []⟩ ∧
    HasLoop ⟨[], [⟨0, .slice (.port 0 .out) 0 0⟩], [], []⟩ ∧
    HasLoop ⟨[⟨0, .ram8⟩], [], [⟨0, [(.inp, .lit []), (.address, .port 0 .out), (.load, .lit [true])]⟩], []⟩ :=
  ⟨⟨_, .head _, _, .refl, .head (.operand (.head _)) (.head (.net rfl rfl) (.single (.net rfl rfl)))⟩,
    ⟨_, .head _, _, .refl, .head .whole (.single (.netPort rfl rfl))⟩,
    ⟨_, .tail _ (.head _), _, .refl, .single (.address rfl rfl rfl)⟩⟩

theorem witness_LoopRefusalHasLoop :
    System.check ⟨[], [⟨0, .op .not (.cons (.name 1) .nil)⟩, ⟨1, .name 0⟩], [], []⟩ = .error .combinationalLoop := rfl

/-- A construction and a cycle of an ill-formed wiring, and a row that does not fit. -/
theorem witness_IllFormedWiringRefused :
    let bad : System := ⟨[], [⟨0, .name 0⟩], [], []⟩
    ((asked shift (.construct bad)).pending = .construct bad :: [] ∧ bad.WellFormed = false) ∧
    ((asked bad (.cycle ⟨0, []⟩)).pending = .cycle ⟨0, []⟩ :: [] ∧
      (asked bad (.cycle ⟨0, []⟩)).system.WellFormed = false) ∧
    ((asked shift (.cycle ⟨0, []⟩)).pending = .cycle ⟨0, []⟩ :: [] ∧
      Row.fits (asked shift (.cycle ⟨0, []⟩)).system ⟨0, []⟩ = false) := by decide +kernel

theorem witness_FailedCycleReportsEachInstance :
    ((⟨0, .register⟩ : InstDecl) ∈ ready.system.insts ∧
      instanceInputs ready ⟨0, [(2, List.replicate 15 0)]⟩ ⟨0, .register⟩ = [List.replicate 15 0, [1]].map .ok ∧
      decode ⟨.register, 0, [List.replicate 15 0, [1]]⟩ = .error (.widthMismatchError .register .inp 16 15) ∧
      runCycle ⟨0, [(2, List.replicate 15 0)]⟩ ready = .fault (.cycleFailed [.widthMismatchError .register .inp 16 15])) ∧
    EvalError.step 1 (.widthMismatchError .ram8 .inp 16 15) ∈
      [EvalError.gate (.invalidSignalError .nand .a)] ++ [.step 1 (.widthMismatchError .ram8 .inp 16 15)] :=
  ⟨⟨by decide, rfl, rfl, rfl⟩, by decide⟩

theorem witness_WiredInstanceStepsInCycleOnly :
    let op : RawOp := ⟨.register, 0, [w1234, [1]]⟩
    (asked shift (.operation op)).pending = .operation op :: [] ∧ decode op = .ok (.register 0 0x1234#16 true) ∧
      (Instr.comp (.register 0 0x1234#16 true)).stateful = true ∧ (⟨0, .register⟩ : InstDecl) ∈ shift.insts :=
  ⟨rfl, rfl, rfl, by decide⟩

theorem witness_ShiftRegisterCycle : ready.system =
    { insts := [⟨0, .register⟩, ⟨1, .register⟩], nets := [], inputs := [2],
      drives := [⟨0, [(.inp, .name 2), (.load, .lit [true])]⟩,
        ⟨1, [(.inp, .port 0 .out), (.load, .lit [true])]⟩] } := rfl

end Sys2Proof.Tests.Slice0
end

section
/-! PROOFS. The scope family (00_scope.md): the values of a bus (R8) and the purity of the combinational operations
(R11, R21). -/

namespace Sys2Proof

/-! ### The values of a bus -/

/-- Appending a signal doubles the weight of every earlier one, so position i of n ends up with weight 2^(n-1-i). -/
theorem RawBus.value_map_range (f : Nat → Nat) (n : Nat) :
    RawBus.value ((List.range n).map f) = ((List.range n).map fun i => f i * 2 ^ (n - 1 - i)).sum := by
  induction n with
  | zero => rfl
  | succ n ih =>
    have doubled : (List.range n).map (fun i => 2 * (f i * 2 ^ (n - 1 - i))) =
        (List.range n).map fun i => f i * 2 ^ (n - i) := by
      refine List.map_congr_left fun i hi => ?_
      have weight : n - i = n - 1 - i + 1 := by have := List.mem_range.mp hi; omega
      rw [weight, pow_succ]
      ring
    calc RawBus.value ((List.range (n + 1)).map f)
        = 2 * RawBus.value ((List.range n).map f) + f n := by
          rw [List.range_succ, List.map_append, List.map_singleton, RawBus.value_append]
      _ = ((List.range n).map fun i => f i * 2 ^ (n - i)).sum + f n := by
          rw [ih, ← List.sum_map_mul_left, doubled]
      _ = ((List.range (n + 1)).map fun i => f i * 2 ^ (n + 1 - 1 - i)).sum := by
          simp [List.range_succ]

/-- The unsigned value by positions (R8). -/
theorem Bus.u_eq_sum {w : Nat} (b : Bus w) :
    Bus.u b = ((List.range w).map fun i => Signal.raw (Bus.pos b i) * 2 ^ (w - 1 - i)).sum := by
  have raw : Bus.raw b = (List.range w).map fun i => Signal.raw (Bus.pos b i) := List.map_map
  rw [← RawBus.value_raw, raw, RawBus.value_map_range]

/-- The signed value by the unsigned one and position 0, at every width (R8). -/
theorem Bus.s_eq_u_sub {w : Nat} (b : Bus w) :
    Bus.s b = (Bus.u b : Int) - Signal.raw (Bus.pos b 0) * 2 ^ w := by
  unfold Bus.s
  cases Bus.pos b 0 <;> simp [Signal.raw]

/-- R8's bus_w(n) for any integer n, negative ones included. -/
theorem Bus.u_ofInteger (w : Nat) (n : Int) : (Bus.u (Bus.ofInteger w n) : Int) = n % 2 ^ w := by
  have nonneg : 0 ≤ n % 2 ^ w := Int.emod_nonneg n (by positivity)
  simp [Bus.u, Bus.ofInteger, BitVec.toNat_ofInt, nonneg]

/-- Settles O1, by the doubling of `RawBus.value_map_range` for the weights. -/
theorem busValues : Obligations.BusValues :=
  ⟨fun _ b => ⟨Bus.u_eq_sum b, Bus.s_eq_u_sub b⟩, Bus.u_ofInteger⟩

/-! ### The combinational operations -/

/-- Everything a combinational operation does (R11, R21): it returns outputs with no source, which its inputs alone
determine. -/
theorem Machine.exec_combinational {i : Instr} (h : i.comp.stateful = false) :
    ∃ outs, ∀ s, Machine.exec i s = .next (s.give none outs) := by
  cases i
  case latch | bit | register | ram8 | ram64 | ram512 | ram4k | ram16k | pcReset | pcLoad | pcInc | pcHold =>
    nomatch h
  all_goals exact ⟨_, fun _ => rfl⟩

/-- Settles O36: giving outputs writes the field `outputs` and no other. -/
theorem combinationalPurity : Obligations.CombinationalPurity := fun _ h =>
  let ⟨_, hexec⟩ := Machine.exec_combinational h
  ⟨_, hexec⟩

end Sys2Proof
end

section
/-! PROOFS. The state family (10_state.md): each operation changes its own instance only (R22), and every cell is 0 at
construction (R32). -/

namespace Sys2Proof.Machine

/-- Giving outputs steps no instance, so it is within the frame of any one of them. -/
theorem stepsOnly_give (c : Comp) (n : Ident) (s : State) (source : Option Ident) (outs : List (Port × List Signal)) :
    StepsOnly c n s (s.give source outs) :=
  ⟨fun c' n' _ => SameInstance.outputs c' n' s _, rfl, rfl⟩

/-- The frame of every operation (R22): a stateful one writes the store of its own instance and gives outputs, a
combinational one gives outputs only. -/
theorem exec_stepsOnly {i : Instr} {s t : State} (e : exec i s = .next t) : StepsOnly i.comp i.inst s t := by
  cases hs : i.comp.stateful with
  | false =>
    obtain ⟨outs, hexec⟩ := exec_combinational hs
    rw [hexec] at e
    cases e
    exact stepsOnly_give ..
  | true =>
    cases i
    case latch => cases e; exact stepsOnly_setLatch ..
    case bit => cases e; exact stepsOnly_setBit ..
    case register => cases e; exact stepsOnly_setRegister ..
    case ram8 => cases e; exact stepsOnly_setRam _ .ram8 ..
    case ram64 => cases e; exact stepsOnly_setRam _ .ram64 ..
    case ram512 => cases e; exact stepsOnly_setRam _ .ram512 ..
    case ram4k => cases e; exact stepsOnly_setRam _ .ram4k ..
    case ram16k => cases e; exact stepsOnly_setRam _ .ram16k ..
    case pcReset | pcLoad | pcInc | pcHold => cases e; exact stepsOnly_setPc ..
    all_goals nomatch hs

/-- Every word of every memory block is 0 after reset (R32). -/
theorem State.reset_peekRam_word (z : RamSize) (n : Ident) (a : Nat) : (State.reset.peekRam z n).word a = 0x0000#16 := by
  cases z <;> rfl

end Sys2Proof.Machine

namespace Sys2Proof

/-- Settles O37: the frame of every operation, at the stateful ones. -/
theorem stateIsOwned : Obligations.StateIsOwned := fun _ _ _ _ => Machine.exec_stepsOnly

/-- Settles O40: no store lists anything after reset, and what an operation leaves is the frame of its instance. -/
theorem cellsStartZeroAndPersist : Obligations.CellsStartZeroAndPersist := by
  refine ⟨fun n => ⟨rfl, rfl, rfl, rfl, fun z a => Machine.State.reset_peekRam_word z n a⟩, ?_⟩
  intro i s t c n e other
  obtain ⟨others, -, -⟩ := Machine.exec_stepsOnly e
  exact others c n fun own => other ⟨own.1.symm, own.2.symm⟩

end Sys2Proof
end

section
/-! PROOFS. The memory family (20_memory.md): a cycle of a memory block of each size (R46, R47, R50). -/

namespace Sys2Proof.Machine

/-- Everything the operation of a memory block does, whatever the block's size (R46, R47, R50). -/
theorem exec_ramOperation_stepped (z : RamSize) (n : Ident) (inp : Bus16) (address : Bus z.addressWidth)
    (load : Signal) (s : State) :
    RamStepped z n inp (Bus.u address) load s (exec (z.operation n inp address load) s) := by
  rw [exec_ramOperation]
  exact ramCycle_stepped z n inp address load s

end Sys2Proof.Machine

namespace Sys2Proof

/-- Settles O21: the five operations are `RamSize.operation` at the five sizes. -/
theorem ramsComplete : Obligations.RamsComplete := fun n inp load s =>
  ⟨fun a => Machine.exec_ramOperation_stepped .ram8 n inp a load s,
    fun a => Machine.exec_ramOperation_stepped .ram64 n inp a load s,
    fun a => Machine.exec_ramOperation_stepped .ram512 n inp a load s,
    fun a => Machine.exec_ramOperation_stepped .ram4k n inp a load s,
    fun a => Machine.exec_ramOperation_stepped .ram16k n inp a load s⟩

end Sys2Proof
end

section
/-! PROOFS. The combinational family (40_combinational.md): the gates by their tables (R100, R101, R105, R110), the
8-way OR (R111), and the multiway selectors and distributors by the index u(sel) (R112 to R116). -/

namespace Sys2Proof

/-! ### The index of a selector, by its positions (R112, R113) -/

theorem Bus.u_two (sel : Bus 2) : Bus.u sel = 2 * Signal.raw (Bus.pos sel 0) + Signal.raw (Bus.pos sel 1) := by
  simp [Bus.u_eq_sum, List.range_succ, mul_comm]

theorem Bus.u_three (sel : Bus 3) :
    Bus.u sel = 4 * Signal.raw (Bus.pos sel 0) + 2 * Signal.raw (Bus.pos sel 1) + Signal.raw (Bus.pos sel 2) := by
  simp [Bus.u_eq_sum, List.range_succ, mul_comm, add_assoc]

/-- Position 0 of an index of three positions picks the half, the other two the place in it (R115). -/
theorem Bus.u_three_halves (sel : Bus 3) :
    Bus.u sel = 4 * Signal.raw (Bus.pos sel 0) + Bus.u (Bus.build 2 fun i => Bus.pos sel (i + 1)) := by
  simp [Bus.u_three, Bus.u_two, add_assoc]

end Sys2Proof

namespace Sys2Proof.Machine

/-! ### What each operation returns, by its gate -/

section
variable (a b in0 in1 in2 in3 in4 in5 in6 in7 : Bus16) (x y inp sel : Signal) (inp8 : Bus 8)
  (sel2 : Bus 2) (sel3 : Bus 3) (s : State)

theorem exec_nand : exec (.nand x y) s = .next (s.give none [(.out, [nandGate x y])]) := rfl

theorem exec_not : exec (.not x) s = .next (s.give none [(.out, [notGate x])]) := rfl

theorem exec_mux : exec (.mux x y sel) s = .next (s.give none [(.out, [muxGate x y sel])]) := rfl

theorem exec_mux16 : exec (.mux16 a b sel) s = .next (s.give none [(.out, Bus.signals (mux16Gate a b sel))]) := rfl

theorem exec_or8way : exec (.or8way inp8) s = .next (s.give none [(.out, [or8wayGate inp8])]) := rfl

theorem exec_mux4way16 : exec (.mux4way16 in0 in1 in2 in3 sel2) s =
    .next (s.give none [(.out, Bus.signals (mux4way16Gate in0 in1 in2 in3 sel2))]) := rfl

theorem exec_mux8way16 : exec (.mux8way16 in0 in1 in2 in3 in4 in5 in6 in7 sel3) s =
    .next (s.give none [(.out, Bus.signals (mux8way16Gate in0 in1 in2 in3 in4 in5 in6 in7 sel3))]) := rfl

theorem exec_dmux4way : exec (.dmux4way inp sel2) s =
    .next (s.give none ((List.zip [Port.out0, .out1, .out2, .out3] (List.range 4)).map fun o =>
      (o.1, [Bus.pos (dmux4wayGate inp sel2) o.2]))) := rfl

theorem exec_dmux8way : exec (.dmux8way inp sel3) s =
    .next (s.give none
      ((List.zip [Port.out0, .out1, .out2, .out3, .out4, .out5, .out6, .out7] (List.range 8)).map fun o =>
        (o.1, [Bus.pos (dmux8wayGate inp sel3) o.2]))) := rfl

end

/-! ### What the composed gates compute -/

/-- The tree of seven ORs asks all 8 positions (R111). -/
theorem or8wayGate_eq_true_iff (inp : Bus 8) : or8wayGate inp = true ↔ ∃ i, i < 8 ∧ Bus.pos inp i = true := by
  simp only [or8wayGate, orGate_eq, Bool.or_eq_true, or_assoc, Nat.exists_lt_succ_right, Nat.not_lt_zero, false_and,
    exists_false, false_or]

/-- The tree of MUX16s on sel[1], then on sel[0], selects by index (R112, R116). -/
theorem mux4way16Gate_eq (in0 in1 in2 in3 : Bus16) (sel : Bus 2) :
    mux4way16Gate in0 in1 in2 in3 sel = [in0, in1, in2, in3].getD (Bus.u sel) (0#16) := by
  rw [Bus.u_two, mux4way16Gate]
  cases Bus.pos sel 0 <;> cases Bus.pos sel 1 <;> simp [Signal.raw]

/-- The tree of MUX16s on sel[2], then on sel[1], then on sel[0], selects by index (R113, R116). -/
theorem mux8way16Gate_eq (in0 in1 in2 in3 in4 in5 in6 in7 : Bus16) (sel : Bus 3) :
    mux8way16Gate in0 in1 in2 in3 in4 in5 in6 in7 sel =
      [in0, in1, in2, in3, in4, in5, in6, in7].getD (Bus.u sel) (0#16) := by
  rw [Bus.u_three, mux8way16Gate]
  cases Bus.pos sel 0 <;> cases Bus.pos sel 1 <;> cases Bus.pos sel 2 <;> simp [Signal.raw]

/-- Output j of DMUX4WAY (R114). -/
theorem pos_dmux4wayGate (inp : Signal) (sel : Bus 2) {j : Nat} (h : j < 4) :
    Bus.pos (dmux4wayGate inp sel) j = if j = Bus.u sel then inp else false := by
  rw [Bus.u_two, dmux4wayGate]
  cases Bus.pos sel 0 <;> cases Bus.pos sel 1 <;> interval_cases j <;> simp [Signal.raw]

/-- Output j of DMUX8WAY (R115). The half that position 0 of the selector does not pick distributes a 0. -/
theorem pos_dmux8wayGate (inp : Signal) (sel : Bus 3) {j : Nat} (h : j < 8) :
    Bus.pos (dmux8wayGate inp sel) j = if j = Bus.u sel then inp else false := by
  rw [Bus.u_three_halves]
  simp only [dmux8wayGate, dmuxGate_eq, Bus.pos_build, h, decide_true, Bool.true_and]
  generalize Bus.build 2 (fun i => Bus.pos sel (i + 1)) = low
  have bound : Bus.u low < 4 := low.isLt
  by_cases lower : j < 4
  · rw [if_pos lower, pos_dmux4wayGate _ _ lower]
    cases Bus.pos sel 0
    · simp [Signal.raw]
    · have other : j ≠ 4 + Bus.u low := by omega
      simp [Signal.raw, other]
  · rw [if_neg lower, pos_dmux4wayGate _ _ (by omega)]
    cases Bus.pos sel 0
    · have other : j ≠ Bus.u low := by omega
      simp [Signal.raw, other]
    · have shifted : j - 4 = Bus.u low ↔ j = 4 + Bus.u low := by omega
      simp [Signal.raw, shifted]

/-- The outputs of a distributor, named by their indices, are equal when its n output signals are. -/
theorem numberedOutputs_congr {n : Nat} {f g : Nat → Signal} (h : ∀ j, j < n → f j = g j) (ports : List Port) :
    ((List.zip ports (List.range n)).map fun o => (o.1, [f o.2])) =
      (List.zip ports (List.range n)).map fun o => (o.1, [g o.2]) :=
  List.map_congr_left fun o ho => by rw [h o.2 (List.mem_range.mp (List.of_mem_zip ho).2)]

end Sys2Proof.Machine

namespace Sys2Proof

/-! ### The obligations -/

/-- Settles O9: `Machine.mux16Gate_eq` selects on sel = 1, the statement on sel = 0. -/
theorem mux16Completes : Obligations.Mux16Completes := fun a b sel s => by
  rw [Machine.exec_mux16, Machine.mux16Gate_eq]
  cases sel <;> rfl

/-- Settles O10, by what the OR tree asks. -/
theorem or8wayCompletes : Obligations.Or8wayCompletes := fun inp s =>
  ⟨Machine.or8wayGate inp, Machine.exec_or8way inp s, Machine.or8wayGate_eq_true_iff inp⟩

/-- Settles O11, by the selection of each tree. -/
theorem multiwayMuxComplete : Obligations.MultiwayMuxComplete :=
  ⟨fun _ _ _ _ _ _ => by rw [Machine.exec_mux4way16, Machine.mux4way16Gate_eq],
    fun _ _ _ _ _ _ _ _ _ _ => by rw [Machine.exec_mux8way16, Machine.mux8way16Gate_eq]⟩

/-- Settles O12, by what each output of a distributor carries. -/
theorem multiwayDemuxComplete : Obligations.MultiwayDemuxComplete :=
  ⟨fun inp sel _ => by
      rw [Machine.exec_dmux4way, Machine.numberedOutputs_congr fun _ => Machine.pos_dmux4wayGate inp sel],
    fun inp sel _ => by
      rw [Machine.exec_dmux8way, Machine.numberedOutputs_congr fun _ => Machine.pos_dmux8wayGate inp sel]⟩

/-- Settles O2, by NAND's table. -/
theorem nandCompletes : Obligations.NandCompletes := fun a b s => by
  rw [Machine.exec_nand, Machine.nandGate_eq]
  cases a <;> cases b <;> rfl

/-- Settles O3, by NOT's table. -/
theorem notCompletes : Obligations.NotCompletes := fun a s => by
  rw [Machine.exec_not, Machine.notGate_eq]
  cases a <;> rfl

/-- Settles O5: `Machine.muxGate_eq` selects on sel = 1, the statement on sel = 0. -/
theorem muxCompletes : Obligations.MuxCompletes := fun a b sel s => by
  rw [Machine.exec_mux, Machine.muxGate_eq]
  cases sel <;> rfl

end Sys2Proof
end

section
/-! PROOFS. The arithmetic family (41_arithmetic.md): the adders (R130 to R133) and the ALU with its flags (R134,
R135). -/

namespace Sys2Proof.Machine

/-! ### What each operation returns -/

section
variable (x y c : Signal) (a b : Bus16) (zx nx zy ny f no : Signal) (s : State)

theorem exec_halfadd : exec (.halfadd x y) s =
    .next (s.give none [(.sum, [(halfAdd x y).1]), (.carry, [(halfAdd x y).2])]) := rfl

theorem exec_fulladd : exec (.fulladd x y c) s =
    .next (s.give none [(.sum, [(fullAdd x y c).1]), (.carry, [(fullAdd x y c).2])]) := rfl

theorem exec_add16 : exec (.add16 a b) s = .next (s.give none [(.out, Bus.signals (add16Gate a b))]) := rfl

theorem exec_inc16 : exec (.inc16 a) s = .next (s.give none [(.out, Bus.signals (inc16Gate a))]) := rfl

theorem exec_alu : exec (.alu a b zx nx zy ny f no) s =
    .next (s.give none
      [(.out, Bus.signals (aluResult a b zx nx zy ny f no)), (.zr, [zeroFlag (aluResult a b zx nx zy ny f no)]),
        (.ng, [negativeFlag (aluResult a b zx nx zy ny f no)])]) := rfl

end

/-! ### The adders -/

/-- The sum and the carry of two bits, each by itself (R130). -/
theorem halfAdd_eq (a b : Signal) :
    halfAdd a b = (if a = b then false else true, if a = true ∧ b = true then true else false) := by
  cases a <;> cases b <;> rfl

/-- Incrementing is addition of 1 modulo 2^16 (R133). -/
theorem inc16Gate_eq (a : Bus16) : inc16Gate a = a + 1#16 := add16Gate_eq a (1#16)

/-! ### The ALU -/

/-- An operand is zeroed first and inverted after that (R134). -/
theorem aluOperand_eq (v : Bus16) (z n : Signal) :
    aluOperand v z n =
      let zeroed : Bus16 := if z = true then 0#16 else v
      if n = true then ~~~zeroed else zeroed := by
  simp only [aluOperand, mux16Gate_eq, not16Gate_eq]

/-- The result combines the two prepared operands by addition or AND and is inverted last (R134). -/
theorem aluResult_eq (x y : Bus16) (zx nx zy ny f no : Signal) :
    aluResult x y zx nx zy ny f no =
      let x2 := aluOperand x zx nx
      let y2 := aluOperand y zy ny
      let r : Bus16 := if f = true then x2 + y2 else x2 &&& y2
      if no = true then ~~~r else r := by
  simp only [aluResult, mux16Gate_eq, not16Gate_eq, and16Gate_eq, add16Gate_eq]

end Sys2Proof.Machine

namespace Sys2Proof

/-- Addition of words is addition of their values modulo 2^w (R8). -/
theorem Bus.u_add {w : Nat} (a b : Bus w) : Bus.u (a + b) = (Bus.u a + Bus.u b) % 2 ^ w :=
  BitVec.toNat_add a b

/-- The sign of a bus is its position 0, at every width (R8): u(b) < 2^w, so it is outweighed when position 0 is 1. -/
theorem Bus.s_neg_iff {w : Nat} (b : Bus w) : Bus.s b < 0 ↔ Bus.pos b 0 = true := by
  have bound : (Bus.u b : Int) < 2 ^ w := mod_cast b.isLt
  rw [Bus.s_eq_u_sub]
  cases Bus.pos b 0
  · simp [Signal.raw]
  · simpa [Signal.raw] using bound

/-- The negative flag (R135). -/
theorem Machine.negativeFlag_eq (out : Bus16) : Machine.negativeFlag out = decide (Bus.s out < 0) := by
  rw [Bool.eq_iff_iff, decide_eq_true_iff, Bus.s_neg_iff]
  rfl

/-! ### The obligations -/

/-- Settles O14: the adder and the incrementer are the addition of words. -/
theorem addersComplete : Obligations.AddersComplete := by
  refine ⟨fun a b s => ⟨a + b, ?_, Bus.u_add a b⟩, fun a s => ⟨a + 1#16, ?_, Bus.u_add a (1#16)⟩⟩
  · rw [Machine.exec_add16, Machine.add16Gate_eq]
  · rw [Machine.exec_inc16, Machine.inc16Gate_eq]

/-- Settles O16: the result from its prepared operands, then each flag from the result alone. -/
theorem aluCompletes : Obligations.AluCompletes := by
  intro x y zx nx zy ny f no s
  rw [Machine.exec_alu, Machine.zeroFlag_eq, Machine.negativeFlag_eq, Machine.aluResult_eq, Machine.aluOperand_eq,
    Machine.aluOperand_eq]

/-- Settles O13, by the two-bit sums of `Machine.halfAdd_sum` and `Machine.fullAdd_sum`. -/
theorem bitAddersComplete : Obligations.BitAddersComplete :=
  ⟨fun a b s => ⟨(Machine.halfAdd a b).1, (Machine.halfAdd a b).2, Machine.exec_halfadd a b s, Machine.halfAdd_sum a b,
      congrArg Prod.fst (Machine.halfAdd_eq a b), congrArg Prod.snd (Machine.halfAdd_eq a b)⟩,
    fun a b c s => ⟨(Machine.fullAdd a b c).1, (Machine.fullAdd a b c).2, Machine.exec_fulladd a b c s,
      Machine.fullAdd_sum a b c⟩⟩

end Sys2Proof
end

section
/-! PROOFS. The sequential family (42_sequential.md): one cycle of a LATCH, of a BIT and of a REGISTER (R150 to R152). -/

namespace Sys2Proof.Machine

/-! ### What each operation does at the edge -/

/-- A BIT's step: its multiplexer feeds the LATCH the input or the old state (R151). -/
theorem bitStep_eq (q inp load : Signal) : bitStep q inp load = (q, if load then inp else q) := by
  rw [bitStep, latchStep, muxGate_eq]

section
variable (n : Ident) (x : Signal) (inp : Bus16) (load : Signal) (s : State)

theorem exec_latch : exec (.latch n x) s = .next ((s.setLatch n x).give (some n) [(.out, [s.peekLatch n])]) := rfl

theorem exec_bit : exec (.bit n x load) s =
    .next ((s.setBit n (if load then x else s.peekBit n)).give (some n) [(.out, [s.peekBit n])]) := by
  rw [exec, execBit, bitStep_eq]

theorem exec_register : exec (.register n inp load) s =
    .next ((s.setRegister n (if load then inp else s.peekRegister n)).give (some n)
      [(.out, Bus.signals (s.peekRegister n))]) := by
  rw [exec, execRegister, registerStep_eq]

end

end Sys2Proof.Machine

namespace Sys2Proof

/-! ### The obligations -/

/-- Settles O20: the 16 BITs under one load select a whole word (`Machine.registerStep_eq`), and the edge writes the
store of registers only. -/
theorem registerCompletes : Obligations.RegisterCompletes := fun n inp load s => by
  refine ⟨_, Machine.exec_register n inp load s, rfl, ?_, Machine.stepsOnly_setRegister ..⟩
  rw [Machine.State.peekRegister_give, Machine.State.peekRegister_setRegister, if_pos rfl]

/-- Settles O18: the edge writes the store of latches only. -/
theorem latchCompletes : Obligations.LatchCompletes := fun n inp s => by
  refine ⟨_, Machine.exec_latch n inp s, rfl, ?_, Machine.stepsOnly_setLatch ..⟩
  rw [Machine.State.peekLatch_give, Machine.State.peekLatch_setLatch, if_pos rfl]

/-- Settles O19: the multiplexer's choice (`Machine.bitStep_eq`), and the edge writes the store of bits only. -/
theorem bitCompletes : Obligations.BitCompletes := fun n inp load s => by
  refine ⟨_, Machine.exec_bit n inp load s, rfl, ?_, Machine.stepsOnly_setBit ..⟩
  rw [Machine.State.peekBit_give, Machine.State.peekBit_setBit, if_pos rfl]

end Sys2Proof
end

section
/-! PROOFS. The program counter family (44_program_counter.md): one cycle of a PC by its controls (R190), and its four
cases (R191 to R194). -/

namespace Sys2Proof

/-- The numeral of a bus's successor wraps at 2^w, as the addition of words does (R133). -/
theorem Bus.ofNum_u_add_one {w : Nat} (b : Bus w) : Bus.ofNum w (Bus.u b + 1) = b + 1#w := by
  rw [Bus.ofNum, BitVec.ofNat_add]
  exact congrArg (· + 1#w) (Bus.ofNum_u b)

namespace Machine

/-- The operation the controls select is the PC's cycle under those controls (R64). -/
theorem exec_pcOperation (n : Ident) (inp : Bus16) (increment load reset : Signal) (s : State) :
    exec (pcOperation n inp increment load reset) s = .next (pcCycle n inp increment load reset s) := by
  cases reset
  case true => rfl
  case false =>
    cases load
    case true => rfl
    case false => cases increment <;> rfl

/-- Everything the operation the controls select does, its next value by the priority of R190. -/
theorem exec_pcOperation_stepped (n : Ident) (inp : Bus16) (increment load reset : Signal) (s : State) :
    PcStepped n
      (if reset = true then 0#16
        else if load = true then inp
        else if increment = true then Bus.ofNum 16 (Bus.u (s.peekPc n) + 1)
        else s.peekPc n) s (exec (pcOperation n inp increment load reset) s) := by
  rw [exec_pcOperation, Bus.ofNum_u_add_one]
  exact pcCycle_stepped n inp increment load reset s

end Machine

/-! ### The obligations -/

/-- Settles O25: the four operations are those the controls select, each a row of the priority of R190. -/
theorem pcOperationsComplete : Obligations.PcOperationsComplete := fun n inp s =>
  ⟨fun increment load => Machine.exec_pcOperation_stepped n inp increment load true s,
    fun increment => Machine.exec_pcOperation_stepped n inp increment true false s,
    Machine.exec_pcOperation_stepped n inp true false false s,
    Machine.exec_pcOperation_stepped n inp false false false s⟩

end Sys2Proof
end

section
/-! PROOFS. The exceptions family (60_exceptions.md): decoding accepts exactly the well-formed port values (R200, R201,
R204, R222), and a step the host does not ask for changes nothing (R216). -/

namespace Sys2Proof

/-- With every input supplied no value is left unpaired, so no signal fails exactly when every supplied signal is 0 or 1
(R200). -/
theorem RawOp.signalFailures_eq_nil_iff {op : RawOp} (supplied : op.ports.length = op.comp.inputs.length) :
    op.signalFailures = [] ↔ ∀ r ∈ op.ports, ∀ x ∈ r, x < 2 := by
  have values : op.supplied.map Prod.snd = op.ports := List.map_snd_zip supplied.le
  have all_valid : op.signalFailures = [] ↔ ∀ r ∈ op.supplied.map Prod.snd, RawBus.valid r = true := by
    simp only [RawOp.signalFailures, List.filter_eq_nil_iff, List.forall_mem_map, Bool.not_eq_true', Bool.not_eq_false]
  rw [all_valid, values]
  simp only [RawBus.valid, List.all_eq_true, decide_eq_true_eq]

/-- Each of decoding's three checks refuses by an error of its own, so what decodes has passed all three. -/
theorem checks_pass_of_decode_ok {op : RawOp} {i : Instr} (h : decode op = .ok i) :
    op.ports.length = op.comp.inputs.length ∧ op.widthFailures = [] ∧ op.signalFailures = [] := by
  unfold decode at h
  split at h
  case isTrue => cases h
  case isFalse supplied =>
    split at h
    case h_1 => cases h
    case h_2 widths =>
      split at h
      case h_1 => cases h
      case h_2 signals =>
        exact ⟨not_not.mp supplied, namedFailure_eq_none.mp widths, namedFailure_eq_none.mp signals⟩

/-- What decodes is well formed. -/
theorem wellFormed_of_decode_ok {op : RawOp} {i : Instr} (h : decode op = .ok i) : op.WellFormed := by
  obtain ⟨supplied, widths, signals⟩ := checks_pass_of_decode_ok h
  exact ⟨(zip_widths_eq supplied).mp widths, (RawOp.signalFailures_eq_nil_iff supplied).mp signals⟩

/-! ### The obligations -/

/-- Settles O31: what decodes has passed every check (`wellFormed_of_decode_ok`), and well-formed port values pass them
(`decode_of_wellFormed`). -/
theorem decodeAcceptsExactlyWellFormed : Obligations.DecodeAcceptsExactlyWellFormed := fun _ =>
  ⟨fun ⟨_, accepted⟩ => wellFormed_of_decode_ok accepted, fun wellFormed => ⟨_, decode_of_wellFormed wellFormed⟩⟩

/-- Settles O44: with an empty queue a step takes its first branch. -/
theorem noRequestNoChange : Obligations.NoRequestNoChange := fun s idle => by
  simp only [Machine.step, idle]

end Sys2Proof
end

section
/-! PROOFS. The reset and hazards family (70_reset_and_hazards.md): every call terminates with a next state (R228), and a
loaded value is at the output one cycle later (R230). -/

namespace Sys2Proof.Machine

/-! ### What a cycle of a storage cell returns -/

section
variable (n : Ident) (x : Signal) (inp : Bus16) (load : Signal) (s : State)

theorem returned_bit : returned (exec (.bit n x load) s) = some [⟨some n, .out, [s.peekBit n]⟩] := by
  rw [exec_bit]
  rfl

theorem returned_register :
    returned (exec (.register n inp load) s) = some [⟨some n, .out, Bus.signals (s.peekRegister n)⟩] := by
  rw [exec_register]
  rfl

theorem returned_ramOperation (z : RamSize) (address : Bus z.addressWidth) :
    returned (exec (z.operation n inp address load) s) =
      some [⟨some n, .out, Bus.signals ((s.peekRam z n).word (Bus.u address))⟩] := by
  obtain ⟨t, completes, oldWord, -⟩ := exec_ramOperation_stepped z n inp address load s
  rw [completes, returned, oldWord]

theorem returned_pcOperation (increment reset : Signal) :
    returned (exec (pcOperation n inp increment load reset) s) =
      some [⟨some n, .out, Bus.signals (s.peekPc n)⟩] := by
  obtain ⟨t, completes, oldValue, -⟩ := exec_pcOperation_stepped n inp increment load reset s
  rw [completes, returned, oldValue]

end

end Sys2Proof.Machine

namespace Sys2Proof

/-! ### The obligations -/

/-- Settles O39: the edge leaves the loaded value in the cell, and every cycle returns what the cell held before it. -/
theorem oneCycleWriteLatency : Obligations.OneCycleWriteLatency := by
  refine ⟨fun n v x l s => ?bit, fun n v x l s => ?register, fun z n address v x l s => ?ram,
    fun n v x i i' l' r' s => ?pc⟩
  case bit =>
    obtain ⟨t, completes, oldValue, loaded, -⟩ := bitCompletes n v true s
    refine ⟨t, completes, oldValue, ?_⟩
    rw [Machine.returned_bit, loaded, if_pos rfl]
  case register =>
    obtain ⟨t, completes, oldValue, loaded, -⟩ := registerCompletes n v true s
    refine ⟨t, completes, oldValue, ?_⟩
    rw [Machine.returned_register, loaded, if_pos rfl]
  case ram =>
    obtain ⟨t, completes, oldWord, words, -⟩ := Machine.exec_ramOperation_stepped z n v address true s
    refine ⟨t, completes, oldWord, ?_⟩
    rw [Machine.returned_ramOperation, words, if_pos ⟨rfl, rfl⟩]
  case pc =>
    obtain ⟨-, pcLoads, -⟩ := pcOperationsComplete n v s
    obtain ⟨t, completes, oldValue, loaded, -⟩ := pcLoads i
    refine ⟨t, completes, oldValue, ?_⟩
    rw [Machine.returned_pcOperation, loaded]

/-- Settles O35: a combinational operation gives its outputs, a stateful one is the cycle of its instance. -/
theorem everyOperationCompletes : Obligations.EveryOperationCompletes := by
  intro i s
  cases hs : i.comp.stateful with
  | false =>
    obtain ⟨outs, hexec⟩ := Machine.exec_combinational hs
    exact ⟨_, hexec s⟩
  | true =>
    cases i
    case latch n inp => exact ⟨_, Machine.exec_latch n inp s⟩
    case bit n inp load => exact ⟨_, Machine.exec_bit n inp load s⟩
    case register n inp load => exact ⟨_, Machine.exec_register n inp load s⟩
    case ram8 n inp address load => exact ⟨_, Machine.exec_ramOperation .ram8 n inp address load s⟩
    case ram64 n inp address load => exact ⟨_, Machine.exec_ramOperation .ram64 n inp address load s⟩
    case ram512 n inp address load => exact ⟨_, Machine.exec_ramOperation .ram512 n inp address load s⟩
    case ram4k n inp address load => exact ⟨_, Machine.exec_ramOperation .ram4k n inp address load s⟩
    case ram16k n inp address load => exact ⟨_, Machine.exec_ramOperation .ram16k n inp address load s⟩
    case pcReset n inp increment load => exact ⟨_, Machine.exec_pcOperation n inp increment load true s⟩
    case pcLoad n inp increment => exact ⟨_, Machine.exec_pcOperation n inp increment true false s⟩
    case pcInc n inp => exact ⟨_, Machine.exec_pcOperation n inp true false false s⟩
    case pcHold n inp => exact ⟨_, Machine.exec_pcOperation n inp false false false s⟩
    all_goals nomatch hs

end Sys2Proof
end

section
/-! PROOFS. Encoding (30_encoding.md): decoding undoes the encoder and the encoder undoes decoding (R60, R61), the
words of the PC (R64, R70), and which of the two errors a refused operation reports (R200 to R205). -/

namespace Sys2Proof

/-! ### Decoding what the encoder wrote -/

/-- The port values the encoder writes are well formed. -/
theorem wellFormed_encode : ∀ i : Instr, (encode i).WellFormed
  | .nand .. => Laws.EncodedPortsFit.nand ..
  | .not .. => Laws.EncodedPortsFit.not ..
  | .and .. => Laws.EncodedPortsFit.and ..
  | .or .. => Laws.EncodedPortsFit.or ..
  | .xor .. => Laws.EncodedPortsFit.xor ..
  | .mux .. => Laws.EncodedPortsFit.mux ..
  | .dmux .. => Laws.EncodedPortsFit.dmux ..
  | .not16 .. => Laws.EncodedPortsFit.not16 ..
  | .and16 .. => Laws.EncodedPortsFit.and16 ..
  | .or16 .. => Laws.EncodedPortsFit.or16 ..
  | .mux16 .. => Laws.EncodedPortsFit.mux16 ..
  | .or8way .. => Laws.EncodedPortsFit.or8way ..
  | .mux4way16 .. => Laws.EncodedPortsFit.mux4way16 ..
  | .mux8way16 .. => Laws.EncodedPortsFit.mux8way16 ..
  | .dmux4way .. => Laws.EncodedPortsFit.dmux4way ..
  | .dmux8way .. => Laws.EncodedPortsFit.dmux8way ..
  | .halfadd .. => Laws.EncodedPortsFit.halfadd ..
  | .fulladd .. => Laws.EncodedPortsFit.fulladd ..
  | .add16 .. => Laws.EncodedPortsFit.add16 ..
  | .inc16 .. => Laws.EncodedPortsFit.inc16 ..
  | .alu .. => Laws.EncodedPortsFit.alu ..
  | .latch .. => Laws.EncodedPortsFit.latch ..
  | .bit .. => Laws.EncodedPortsFit.bit ..
  | .register .. => Laws.EncodedPortsFit.register ..
  | .ram8 .. => Laws.EncodedPortsFit.ram8 ..
  | .ram64 .. => Laws.EncodedPortsFit.ram64 ..
  | .ram512 .. => Laws.EncodedPortsFit.ram512 ..
  | .ram4k .. => Laws.EncodedPortsFit.ram4k ..
  | .ram16k .. => Laws.EncodedPortsFit.ram16k ..
  | .pcReset .. => Laws.EncodedPortsFit.pcReset ..
  | .pcLoad .. => Laws.EncodedPortsFit.pcLoad ..
  | .pcInc .. => Laws.EncodedPortsFit.pcInc ..
  | .pcHold .. => Laws.EncodedPortsFit.pcHold ..

/-- The port values of a PC operation are its inputs, whatever row its controls select (R61, R64). -/
theorem encode_pcOperation (n : Ident) (inp : Bus16) (increment load reset : Signal) :
    encode (pcOperation n inp increment load reset) =
      ⟨.pc, n, [Bus.raw inp, [Signal.raw increment], [Signal.raw load], [Signal.raw reset]]⟩ := by
  cases reset
  case true => rfl
  case false =>
    cases load
    case true => rfl
    case false => cases increment <;> rfl

theorem assemble_encode_pcOperation (n : Ident) (inp : Bus16) (increment load reset : Signal) :
    (encode (pcOperation n inp increment load reset)).assemble = pcOperation n inp increment load reset := by
  rw [encode_pcOperation]
  simp [RawOp.assemble, RawOp.bus, RawOp.signal]

/-- Every port is read back as what the encoder wrote on it. -/
theorem assemble_encode (i : Instr) : (encode i).assemble = i := by
  cases i
  case pcReset n inp increment load => exact assemble_encode_pcOperation n inp increment load true
  case pcLoad n inp increment => exact assemble_encode_pcOperation n inp increment true false
  case pcInc n inp => exact assemble_encode_pcOperation n inp true false false
  case pcHold n inp => exact assemble_encode_pcOperation n inp false false false
  all_goals simp [encode, Instr.comp, Instr.inst, Instr.ports, RawOp.assemble, RawOp.bus, RawOp.signal]

/-- Settles O28: an encoded operation is well formed, and its ports read back. -/
theorem decodeEncode : Obligations.DecodeEncode := fun i => by
  rw [decode_of_wellFormed (wellFormed_encode i), assemble_encode]

/-! ### Encoding what was decoded -/

/-- A list of signals, as the host writes them, is some bus's. -/
theorem RawBus.exists_raw_eq {k : Nat} {r : RawBus} (length : r.length = k) (signals : ∀ x ∈ r, x < 2) :
    ∃ b : Bus k, Bus.raw b = r := by
  refine ⟨Bus.build k fun i => r.getD i 0 == 1, List.ext_getElem (by simp [length]) fun i _ hr => ?_⟩
  have bit : r[i] < 2 := signals _ (List.getElem_mem hr)
  have inside : i < k := by omega
  simp only [Bus.raw, rawOf, Bus.signals, List.getElem_map, List.getElem_range, Bus.pos_build, inside, decide_true,
    Bool.true_and, List.getD_eq_getElem _ _ hr, Signal.raw, beq_iff_eq]
  split <;> omega

/-- The bus a list of signals denotes, written again, is that list: reading it loses no signal. -/
theorem RawBus.raw_ofNum_value {k : Nat} {r : RawBus} (length : r.length = k) (signals : ∀ x ∈ r, x < 2) :
    Bus.raw (Bus.ofNum k (RawBus.value r)) = r := by
  obtain ⟨b, rfl⟩ := RawBus.exists_raw_eq length signals
  rw [RawBus.value_raw, Bus.ofNum_u]

/-- A well-formed value stands on each port of well-formed port values. -/
theorem RawOp.WellFormed.port {op : RawOp} (h : op.WellFormed) {i k : Nat}
    (width : (op.comp.inputs.map Prod.snd)[i]? = some k) :
    (op.ports.getD i []).length = k ∧ ∀ x ∈ op.ports.getD i [], x < 2 := by
  obtain ⟨widths, signals⟩ := h
  rw [← widths, List.getElem?_map, Option.map_eq_some_iff] at width
  obtain ⟨r, at_i, length⟩ := width
  rw [List.getD_eq_getElem?_getD, at_i, Option.getD_some]
  exact ⟨length, signals r (List.mem_of_getElem? at_i)⟩

/-- A bus port, written again, has the signals it was read from. -/
theorem RawOp.WellFormed.raw_bus {op : RawOp} (h : op.WellFormed) {i k : Nat}
    (width : (op.comp.inputs.map Prod.snd)[i]? = some k) : Bus.raw (op.bus k i) = op.ports.getD i [] :=
  let ⟨length, signals⟩ := h.port width
  RawBus.raw_ofNum_value length signals

/-- A one-signal port, written again, has the signal it was read from. -/
theorem RawOp.WellFormed.raw_signal {op : RawOp} (h : op.WellFormed) {i : Nat}
    (width : (op.comp.inputs.map Prod.snd)[i]? = some 1) : [Signal.raw (op.signal i)] = op.ports.getD i [] := by
  obtain ⟨length, signals⟩ := h.port width
  obtain ⟨x, value⟩ := List.length_eq_one_iff.mp length
  have bit : x < 2 := signals x (value ▸ List.mem_singleton_self x)
  rw [RawOp.signal, value]
  interval_cases x <;> rfl

/-- Well-formed port values are the values on the ports of their component, and no others. -/
theorem RawOp.WellFormed.ports_eq {op : RawOp} (h : op.WellFormed) :
    op.ports = (List.range op.comp.inputs.length).map fun i => op.ports.getD i [] := by
  have supplied : op.ports.length = op.comp.inputs.length := by simpa using congrArg List.length h.1
  refine List.ext_getElem (by simp [supplied]) fun i hp _ => ?_
  simp [hp]

/-- The operation assembled is one of the component's (R70). -/
theorem RawOp.comp_assemble (op : RawOp) : op.assemble.comp = op.comp := by
  obtain ⟨c, n, ports⟩ := op
  cases c
  case pc => exact congrArg RawOp.comp (encode_pcOperation ..)
  all_goals rfl

/-- The operation assembled steps the instance named, where the component has instances (R21). -/
theorem RawOp.inst_assemble {op : RawOp} (h : op.comp.stateful = true) : op.assemble.inst = op.inst := by
  obtain ⟨c, n, ports⟩ := op
  cases c
  case latch | bit | register | ram8 | ram64 | ram512 | ram4k | ram16k => rfl
  case pc => exact congrArg RawOp.inst (encode_pcOperation ..)
  all_goals nomatch h

/-- The operation assembled has on each port the value it was read from. -/
theorem RawOp.WellFormed.ports_assemble {op : RawOp} (h : op.WellFormed) : op.assemble.ports = op.ports := by
  rw [h.ports_eq]
  have bus {i k : Nat} := h.raw_bus (i := i) (k := k)
  have signal {i : Nat} := h.raw_signal (i := i)
  obtain ⟨c, n, ports⟩ := op
  cases c
  case pc =>
    refine (congrArg RawOp.ports (encode_pcOperation ..)).trans ?_
    simp [Comp.inputs, List.range_succ, bus, signal]
  all_goals simp [RawOp.assemble, Instr.ports, Comp.inputs, List.range_succ, bus, signal]

/-- What decodes is what `RawOp.assemble` reads. -/
theorem eq_assemble_of_decode_ok {op : RawOp} {i : Instr} (h : decode op = .ok i) : i = op.assemble :=
  Except.ok.inj (h.symm.trans (decode_of_wellFormed (wellFormed_of_decode_ok h)))

/-- Settles O29: the operation is the one assembled, and its component, ports and instance are those read. -/
theorem encodeDecode : Obligations.EncodeDecode := fun op i h => by
  rw [eq_assemble_of_decode_ok h]
  exact ⟨op.comp_assemble, (wellFormed_of_decode_ok h).ports_assemble, RawOp.inst_assemble⟩

/-! ### The program counter's port values and control words -/

/-- Settles O26: the port values are those of the operation the controls select, and it steps by R190's priority. -/
theorem pcPriority : Obligations.PcPriority := fun n inp increment load reset s =>
  ⟨pcOperation n inp increment load reset,
    encode_pcOperation n inp increment load reset ▸ decodeEncode (pcOperation n inp increment load reset),
    Machine.exec_pcOperation_stepped n inp increment load reset s⟩

/-- Settles O27, word by word. -/
theorem pcControlWords : Obligations.PcControlWords := by
  intro w h
  interval_cases w <;> rfl

/-- Settles O30, by running the decoder. -/
theorem sampleWords : Obligations.SampleWords := ⟨rfl, rfl, rfl, rfl⟩

/-! ### The two errors of the boundary -/

/-- Decoding's second check (R201): the error names a port that stands among those of the wrong width. -/
theorem decode_widthMismatch {op : RawOp} (supplied : op.ports.length = op.comp.inputs.length)
    (failing : op.widthFailures ≠ []) :
    ∃ p ∈ op.widthFailures, decode op = .error (.widthMismatchError op.comp p.1.1 p.1.2 p.2.length) := by
  obtain ⟨p, named⟩ := Option.ne_none_iff_exists'.mp (mt (namedFailure_eq_none (c := op.comp)).mp failing)
  exact ⟨p, namedFailure_mem named, by simp [decode, supplied, named]⟩

/-- Decoding's third check (R200): the error names a port that stands among those with a wrong signal. -/
theorem decode_invalidSignal {op : RawOp} (supplied : op.ports.length = op.comp.inputs.length)
    (widths : op.widthFailures = []) (failing : op.signalFailures ≠ []) :
    ∃ p ∈ op.signalFailures, decode op = .error (.invalidSignalError op.comp p.1.1) := by
  obtain ⟨p, named⟩ := Option.ne_none_iff_exists'.mp (mt (namedFailure_eq_none (c := op.comp)).mp failing)
  exact ⟨p, namedFailure_mem named, by simp [decode, supplied, namedFailure_eq_none.mpr widths, named]⟩

/-- Settles O34: decoding comes first, so its error is the step's refusal, whatever instance is named. -/
theorem errorIsReportedToHost : Obligations.ErrorIsReportedToHost := fun s op rest e asked refused => by
  simp only [Machine.step, asked, Machine.perform, Machine.evaluateOperation, refused, Machine.raiseError]

/-- Settles O32: the width check comes before the signal check, and names a failing port. -/
theorem widthMismatchComesFirst : Obligations.WidthMismatchComesFirst := by
  intro op supplied wrong
  obtain ⟨⟨⟨p, e⟩, v⟩, failing, refused⟩ := decode_widthMismatch supplied (mt (zip_widths_eq supplied).mp wrong)
  obtain ⟨stands, width⟩ := List.mem_filter.mp failing
  obtain ⟨i, port, value⟩ := RawOp.supplied_index stands
  exact ⟨i, p, e, v, port, value, of_decide_eq_true width, refused,
    fun s rest asked => errorIsReportedToHost s op rest _ asked refused⟩

/-- Settles O33: where every width is right, the signal check names a failing port. -/
theorem invalidSignalIsReported : Obligations.InvalidSignalIsReported := by
  rintro op widths ⟨v₀, given, x₀, carried, wrong⟩
  have supplied : op.ports.length = op.comp.inputs.length := by simpa using congrArg List.length widths
  have some_fails : op.signalFailures ≠ [] := fun none_fails =>
    wrong ((RawOp.signalFailures_eq_nil_iff supplied).mp none_fails v₀ given x₀ carried)
  obtain ⟨⟨⟨p, e⟩, v⟩, failing, refused⟩ :=
    decode_invalidSignal supplied ((zip_widths_eq supplied).mpr widths) some_fails
  obtain ⟨stands, invalid⟩ := List.mem_filter.mp failing
  obtain ⟨i, port, value⟩ := RawOp.supplied_index stands
  obtain ⟨x, x_mem, x_wrong⟩ : ∃ x ∈ v, ¬x < 2 := by simpa [RawBus.valid] using invalid
  exact ⟨i, p, e, v, x, port, value, x_mem, x_wrong, refused,
    fun s rest asked => errorIsReportedToHost s op rest _ asked refused⟩

end Sys2Proof
end

section
/-! PROOFS. The memory blocks' two forms (43_memory_blocks.md): the tree's step writes and reads the word its address
indexes, as the flat form does (R43, R170, R176, R177), and what a sequence of writes leaves (R49). -/

namespace Sys2Proof

/-! ### The index an address denotes, level by level (R43) -/

/-- The word index of an address (R43): the number its signals denote. -/
def addressIndex (address : List Signal) : Nat := RawBus.value (rawOf address)

@[simp] theorem addressIndex_signals {w : Nat} (b : Bus w) : addressIndex (Bus.signals b) = Bus.u b :=
  RawBus.value_raw b

/-- The first signals of an address are the positions of the level's selector. -/
theorem signals_topBits {k : Nat} {address : List Signal} (long : k ≤ address.length) :
    Bus.signals (Machine.topBits k address) = address.take k := by
  refine List.ext_getElem (by simp [long]) fun i hi _ => ?_
  have inside : i < k := by simpa using hi
  have given : i < address.length := by omega
  simp [Bus.signals, Machine.topBits, inside, given]

theorem addressIndex_lt (address : List Signal) : addressIndex address < 2 ^ address.length := by
  have all := signals_topBits (le_refl address.length)
  rw [List.take_length] at all
  rw [← all, addressIndex_signals, Bus.signals_length]
  exact (Machine.topBits address.length address).isLt

theorem RawBus.value_append_list (r r' : RawBus) :
    RawBus.value (r ++ r') = RawBus.value r * 2 ^ r'.length + RawBus.value r' := by
  induction r' using List.reverseRecOn with
  | nil => simp [RawBus.value]
  | append_singleton r' x ih =>
    rw [← List.append_assoc, RawBus.value_append, ih, RawBus.value_append, List.length_append, List.length_singleton,
      pow_succ]
    ring

theorem addressIndex_append (high low : List Signal) :
    addressIndex (high ++ low) = addressIndex high * 2 ^ low.length + addressIndex low := by
  simp [addressIndex, rawOf, RawBus.value_append_list]

/-- The top bits pick the child, the others the word in it (R43). -/
theorem addressIndex_split {k : Nat} {address : List Signal} (long : k ≤ address.length) :
    addressIndex address =
      Bus.u (Machine.topBits k address) * 2 ^ (address.length - k) + addressIndex (address.drop k) := by
  rw [← addressIndex_signals, signals_topBits long, ← List.length_drop]
  rw [← addressIndex_append, List.take_append_drop]

/-! ### Words of children of equal size -/

theorem mapIdx_unchanged {α : Type} (ws : List α) : ws.mapIdx (fun _ w => w) = ws := by
  refine List.ext_getElem (by simp) fun j hj _ => ?_
  simp

section
variable {α : Type} {L low : Nat} (small : low < L)
include small

/-- Word `low` of child `top` is word `top * L + low` of the whole. -/
theorem getD_flatten_of_length {ws : List (List α)} (sizes : ∀ w ∈ ws, w.length = L) (top : Nat) (d : α) :
    ws.flatten.getD (top * L + low) d = (ws.getD top []).getD low d := by
  induction ws generalizing top with
  | nil => simp
  | cons w ws ih =>
    have size : w.length = L := sizes w (List.mem_cons_self ..)
    cases top with
    | zero =>
      rw [List.flatten_cons, Nat.zero_mul, Nat.zero_add, List.getD_append _ _ _ _ (by omega), List.getD_cons_zero]
    | succ top =>
      rw [List.flatten_cons, List.getD_append_right _ _ _ _ (by rw [size, Nat.succ_mul]; omega), List.getD_cons_succ,
        ← ih fun v hv => sizes v (List.mem_cons_of_mem _ hv)]
      congr 1
      rw [size, Nat.succ_mul]
      omega

/-- Writing word `low` of child `top` writes word `top * L + low` of the whole. -/
theorem flatten_modify_set {ws : List (List α)} (sizes : ∀ w ∈ ws, w.length = L) (top : Nat) (v : α) :
    (ws.modify top fun w => w.set low v).flatten = ws.flatten.set (top * L + low) v := by
  induction ws generalizing top with
  | nil => simp
  | cons w ws ih =>
    have size : w.length = L := sizes w (List.mem_cons_self ..)
    cases top with
    | zero =>
      rw [List.modify_zero_cons, List.flatten_cons, List.flatten_cons, Nat.zero_mul, Nat.zero_add,
        List.set_append_left _ _ (by omega)]
    | succ top =>
      rw [List.modify_succ_cons, List.flatten_cons, List.flatten_cons,
        List.set_append_right _ _ (by rw [size, Nat.succ_mul]; omega),
        ih fun v hv => sizes v (List.mem_cons_of_mem _ hv)]
      congr 2
      rw [size, Nat.succ_mul]
      omega

/-- Giving the load to child `top` alone writes word `top * L + low` of the whole, and only with load = 1 (R176). -/
theorem flatten_mapIdx_load {ws : List (List α)} (sizes : ∀ w ∈ ws, w.length = L) (top : Nat) (v : α) (load : Signal) :
    (ws.mapIdx fun j w => if (if j = top then load else false) = true then w.set low v else w).flatten =
      if load = true then ws.flatten.set (top * L + low) v else ws.flatten := by
  cases load with
  | false => simp only [ite_self, Bool.false_eq_true, if_false, mapIdx_unchanged]
  | true =>
    rw [if_pos rfl, ← flatten_modify_set small sizes]
    congr 1
    refine List.ext_getElem (by simp) fun j hj _ => ?_
    simp [List.getElem_modify, eq_comm]

end

end Sys2Proof

namespace Sys2Proof.Machine

/-! ### One step of a tree -/

/-- One step of this tree reads and writes the word its address indexes: it returns that word, keeps its levels, and
writes that word alone, only with load = 1. -/
def RamTree.StepsFlat (inp : Bus16) (t : RamTree) (ls : List Nat) : Prop :=
  ∀ (address : List Signal) (load : Signal), address.length = ls.sum →
    (t.step inp address load).1 = t.words.getD (addressIndex address) (0#16) ∧
    (t.step inp address load).2.hasLevels ls = true ∧
    (t.step inp address load).2.words = if load = true then t.words.set (addressIndex address) inp else t.words

/-- A tree has one word for each address of its levels (R40). -/
theorem RamTree.words_length {t : RamTree} {ls : List Nat} (h : t.hasLevels ls = true) :
    t.words.length = 2 ^ ls.sum := by
  induction t generalizing ls with
  | reg q =>
    match ls, h with
    | [], _ => rfl
  | four c0 c1 c2 c3 ih0 ih1 ih2 ih3 =>
    match ls, h with
    | 2 :: ls, h =>
      simp only [RamTree.hasLevels, Bool.and_eq_true, and_assoc] at h
      obtain ⟨h0, h1, h2, h3⟩ := h
      simp only [RamTree.words, List.length_append, ih0 h0, ih1 h1, ih2 h2, ih3 h3, List.sum_cons, pow_add]
      ring
  | eight c0 c1 c2 c3 c4 c5 c6 c7 ih0 ih1 ih2 ih3 ih4 ih5 ih6 ih7 =>
    match ls, h with
    | 3 :: ls, h =>
      simp only [RamTree.hasLevels, Bool.and_eq_true, and_assoc] at h
      obtain ⟨h0, h1, h2, h3, h4, h5, h6, h7⟩ := h
      simp only [RamTree.words, List.length_append, ih0 h0, ih1 h1, ih2 h2, ih3 h3, ih4 h4, ih5 h5, ih6 h6, ih7 h7,
        List.sum_cons, pow_add]
      ring

theorem RamTree.words_four (c0 c1 c2 c3 : RamTree) :
    (RamTree.four c0 c1 c2 c3).words = [c0.words, c1.words, c2.words, c3.words].flatten := by
  simp [RamTree.words]

theorem RamTree.words_eight (c0 c1 c2 c3 c4 c5 c6 c7 : RamTree) :
    (RamTree.eight c0 c1 c2 c3 c4 c5 c6 c7).words =
      [c0.words, c1.words, c2.words, c3.words, c4.words, c5.words, c6.words, c7.words].flatten := by
  simp [RamTree.words]

/-- One level (R43, R170): the children stepped with the remaining bits, the load going to the child the top bits name.
That child's output is the addressed word, and the children's words are as one write leaves them. -/
theorem RamTree.step_children {inp : Bus16} {ls : List Nat} {cs : List RamTree}
    (levels : ∀ c ∈ cs, c.hasLevels ls = true) (steps : ∀ c ∈ cs, c.StepsFlat inp ls) {k : Nat} {address : List Signal}
    (length : address.length = k + ls.sum) (load : Signal) :
    let top := Bus.u (topBits k address)
    let rs := cs.mapIdx fun j c => c.step inp (address.drop k) (if j = top then load else false)
    let words := (cs.map RamTree.words).flatten
    (rs.map Prod.fst).getD top (0#16) = words.getD (addressIndex address) (0#16) ∧
    (∀ r ∈ rs, r.2.hasLevels ls = true) ∧
    (rs.map fun r => r.2.words).flatten = if load = true then words.set (addressIndex address) inp else words := by
  intro top rs words
  have rest : (address.drop k).length = ls.sum := by simp [length]
  have low : addressIndex (address.drop k) < 2 ^ ls.sum := rest ▸ addressIndex_lt _
  have sizes : ∀ w ∈ cs.map RamTree.words, w.length = 2 ^ ls.sum := by
    simpa using fun c hc => RamTree.words_length (levels c hc)
  have split := addressIndex_split (k := k) (address := address) (by omega)
  rw [← List.length_drop, rest] at split
  have outputs : rs.map Prod.fst =
      (cs.map RamTree.words).map fun w => w.getD (addressIndex (address.drop k)) (0#16) := by
    refine List.ext_getElem (by simp [rs]) fun j hj _ => ?_
    have hc : j < cs.length := by simpa [rs] using hj
    simpa [rs] using (steps cs[j] (List.getElem_mem hc) (address.drop k) _ rest).1
  have written : (rs.map fun r => r.2.words) = (cs.map RamTree.words).mapIdx fun j w =>
      if (if j = top then load else false) = true then w.set (addressIndex (address.drop k)) inp else w := by
    refine List.ext_getElem (by simp [rs]) fun j hj _ => ?_
    have hc : j < cs.length := by simpa [rs] using hj
    simp only [rs, List.getElem_map, List.getElem_mapIdx]
    exact (steps cs[j] (List.getElem_mem hc) (address.drop k) _ rest).2.2
  refine ⟨?_, ?_, ?_⟩
  · rw [outputs, split, getD_flatten_of_length low sizes]
    exact List.getD_map _ [] fun w => w.getD (addressIndex (address.drop k)) (0#16)
  · intro r hr
    obtain ⟨j, hj, rfl⟩ := List.mem_mapIdx.mp hr
    exact (steps cs[j] (List.getElem_mem hj) (address.drop k) _ rest).2.1
  · rw [written, flatten_mapIdx_load low sizes, split]

/-- The tree's step and the flat step agree on every tree with levels, level by level. -/
theorem RamTree.stepsFlat {inp : Bus16} {t : RamTree} {ls : List Nat} (h : t.hasLevels ls = true) :
    t.StepsFlat inp ls := by
  induction t generalizing ls with
  | reg q =>
    match ls, h with
    | [], _ =>
      intro address load length
      obtain rfl := List.length_eq_zero_iff.mp length
      cases load <;> simp [RamTree.step, RamTree.words, RamTree.hasLevels, addressIndex, rawOf, RawBus.value]
  | four c0 c1 c2 c3 ih0 ih1 ih2 ih3 =>
    match ls, h with
    | 2 :: ls, h =>
      simp only [RamTree.hasLevels, Bool.and_eq_true, and_assoc] at h
      obtain ⟨h0, h1, h2, h3⟩ := h
      intro address load length
      obtain ⟨output, levels, words⟩ := RamTree.step_children (inp := inp) (cs := [c0, c1, c2, c3])
        (by simp [h0, h1, h2, h3]) (by simp [ih0 h0, ih1 h1, ih2 h2, ih3 h3]) length load
      have loads {j : Nat} := pos_dmux4wayGate load (topBits 2 address) (j := j)
      simp only [RamTree.step, mux4way16Gate_eq, RamTree.words_four, RamTree.hasLevels, loads, Nat.reduceLT]
      exact ⟨output, by simpa [and_assoc] using levels, words⟩
  | eight c0 c1 c2 c3 c4 c5 c6 c7 ih0 ih1 ih2 ih3 ih4 ih5 ih6 ih7 =>
    match ls, h with
    | 3 :: ls, h =>
      simp only [RamTree.hasLevels, Bool.and_eq_true, and_assoc] at h
      obtain ⟨h0, h1, h2, h3, h4, h5, h6, h7⟩ := h
      intro address load length
      obtain ⟨output, levels, words⟩ := RamTree.step_children (inp := inp) (cs := [c0, c1, c2, c3, c4, c5, c6, c7])
        (by simp [h0, h1, h2, h3, h4, h5, h6, h7])
        (by simp [ih0 h0, ih1 h1, ih2 h2, ih3 h3, ih4 h4, ih5 h5, ih6 h6, ih7 h7]) length load
      have loads {j : Nat} := pos_dmux8wayGate load (topBits 3 address) (j := j)
      simp only [RamTree.step, mux8way16Gate_eq, RamTree.words_eight, RamTree.hasLevels, loads, Nat.reduceLT]
      exact ⟨output, by simpa [and_assoc] using levels, words⟩

/-- The levels of a size partition its whole address (R43). -/
theorem ramLevels_sum (z : RamSize) : (ramLevels z).sum = z.addressWidth := by cases z <;> rfl

/-! ### The constructed tree -/

/-- The levels of every size are of four or of eight children. -/
theorem mem_ramLevels {z : RamSize} {d : Nat} (h : d ∈ ramLevels z) : d = 2 ∨ d = 3 := by
  cases z <;> simp [ramLevels] at h <;> omega

/-- The constructed tree has its levels, and every word of it is 0x0000 (R32). -/
theorem RamTree.zeros_spec {ls : List Nat} (h : ∀ d ∈ ls, d = 2 ∨ d = 3) :
    (RamTree.zeros ls).hasLevels ls = true ∧ ∀ w ∈ (RamTree.zeros ls).words, w = 0#16 := by
  induction ls with
  | nil => simp [RamTree.zeros, RamTree.hasLevels, RamTree.words]
  | cons d ls ih =>
    obtain ⟨levels, zero⟩ := ih fun d' h' => h d' (List.mem_cons_of_mem _ h')
    obtain rfl | rfl := h d (List.mem_cons_self ..)
    · simpa [RamTree.zeros, RamTree.hasLevels, RamTree.words, levels] using zero
    · simpa [RamTree.zeros, RamTree.hasLevels, RamTree.words, levels] using zero

/-! ### A sequence of operations of one memory block -/

/-- The latest write of a sequence that begins with an operation is the latest write of the rest, to a word that the
first operation may have written. -/
theorem latestWrite_cons {k : Nat} (o : Bus16 × Bus k × Signal) (ops : List (Bus16 × Bus k × Signal)) (a : Bus k)
    (old : Bus16) :
    latestWrite (o :: ops) a old = latestWrite ops a (if o.2.2 = true ∧ Bus.u a = Bus.u o.2.1 then o.1 else old) := by
  have same_word : Bus.u a = Bus.u o.2.1 ↔ o.2.1 = a := ⟨fun h => (BitVec.eq_of_toNat_eq h).symm, fun h => h ▸ rfl⟩
  obtain ⟨inp, address, load⟩ := o
  simp only [latestWrite, List.reverse_cons, List.find?_append, same_word]
  cases ops.reverse.find? fun o => o.2.2 && o.2.1 == a with
  | some w => rfl
  | none =>
    cases load
    case false => simp
    case true => by_cases written : address = a <;> simp [written]

/-- Every sequence of operations of a memory block completes and leaves its latest writes (R49). -/
theorem runAll_ramOperations (z : RamSize) (n : Ident) (ops : List (Bus16 × Bus z.addressWidth × Signal)) (s : State)
    (outs : List Output) : ∃ t,
      runAll (ops.map fun o => z.operation n o.1 o.2.1 o.2.2) s outs = .next t ∧
      ∀ a : Bus z.addressWidth,
        (t.peekRam z n).word (Bus.u a) = latestWrite ops a ((s.peekRam z n).word (Bus.u a)) := by
  induction ops generalizing s outs with
  | nil => exact ⟨_, rfl, fun a => by cases z <;> rfl⟩
  | cons o ops ih =>
    obtain ⟨s', completes, -, words, -⟩ := exec_ramOperation_stepped z n o.1 o.2.1 o.2.2 s
    obtain ⟨t, rest, latest⟩ := ih s' (outs ++ s'.outputs)
    refine ⟨t, by simp only [List.map_cons, runAll, completes, rest], fun a => ?_⟩
    rw [latest, words, latestWrite_cons]

end Sys2Proof.Machine

namespace Sys2Proof

/-! ### The obligations -/

/-- Settles O22: the tree's step on the words it holds (`RamTree.stepsFlat`) is the flat step. -/
theorem ramTreeRefinesFlat : Obligations.RamTreeRefinesFlat := by
  intro z t m inp address load levels holds
  have sum := Machine.ramLevels_sum z
  obtain ⟨output, kept, words⟩ :=
    Machine.RamTree.stepsFlat (inp := inp) levels (Bus.signals address) load (by simp [sum])
  rw [addressIndex_signals] at output words
  have inside : Bus.u address < t.words.length := by
    rw [Machine.RamTree.words_length levels, sum]
    exact address.isLt
  refine ⟨output.trans (holds _ inside), kept, fun a ha => ?_⟩
  cases load with
  | false =>
    rw [words] at ha ⊢
    exact holds a ha
  | true =>
    rw [words, if_pos rfl, List.length_set] at ha
    rw [words, if_pos rfl, Machine.ramStep, if_pos rfl, Machine.memWrite_word]
    by_cases written : a = Bus.u address
    · simp [written, inside]
    · rw [if_neg written, ← holds a ha, List.getD_eq_getElem?_getD, List.getElem?_set_ne (Ne.symm written),
        List.getD_eq_getElem?_getD]

/-- Settles O23, by `RamTree.zeros_spec`. -/
theorem ramTreeConstructed : Obligations.RamTreeConstructed := by
  intro z
  obtain ⟨levels, zero⟩ := Machine.RamTree.zeros_spec fun _ => Machine.mem_ramLevels (z := z)
  refine ⟨levels, ?_, fun a ha => ?_⟩
  · rw [Machine.RamTree.words_length levels, Machine.ramLevels_sum]
  · rw [List.getD_eq_getElem _ _ ha]
    exact zero _ (List.getElem_mem ha)

/-- Settles O24, by `Machine.runAll_ramOperations` from no outputs. -/
theorem ramHoldsLatestWrite : Obligations.RamHoldsLatestWrite := fun z n ops s =>
  Machine.runAll_ramOperations z n ops s []

end Sys2Proof
end

section
/-! PROOFS. The gates and the arithmetic unit in the forms the spec derives (40_combinational.md, 41_arithmetic.md): the
tables of AND, OR, XOR and DMUX, the 16-position gates, the adder's signed reading, and the ALU's named functions. -/

namespace Sys2Proof.Machine

/-! ### What each operation returns, by its gate -/

section
variable (x y inp sel : Signal) (a b : Bus16) (s : State)

theorem exec_and : exec (.and x y) s = .next (s.give none [(.out, [andGate x y])]) := rfl

theorem exec_or : exec (.or x y) s = .next (s.give none [(.out, [orGate x y])]) := rfl

theorem exec_xor : exec (.xor x y) s = .next (s.give none [(.out, [xorGate x y])]) := rfl

theorem exec_dmux : exec (.dmux inp sel) s =
    .next (s.give none [(.a, [(dmuxGate inp sel).1]), (.b, [(dmuxGate inp sel).2])]) := rfl

theorem exec_not16 : exec (.not16 a) s = .next (s.give none [(.out, Bus.signals (~~~a))]) := by
  rw [← not16Gate_eq]
  rfl

theorem exec_and16 : exec (.and16 a b) s = .next (s.give none [(.out, Bus.signals (a &&& b))]) := by
  rw [← and16Gate_eq]
  rfl

theorem exec_or16 : exec (.or16 a b) s = .next (s.give none [(.out, Bus.signals (a ||| b))]) := by
  rw [← or16Gate_eq]
  rfl

end

end Sys2Proof.Machine

namespace Sys2Proof

/-! ### Values of words (R8) -/

/-- Inverting every position takes the unsigned value from 65535. -/
theorem Bus.u_not (a : Bus16) : Bus.u (~~~a) = 65535 - Bus.u a := BitVec.toNat_not

/-- Inverting every position negates the signed value and takes 1 off. -/
theorem Bus.s_not (a : Bus16) : Bus.s (~~~a) = -Bus.s a - 1 := by
  have bound : Bus.u a < 65536 := a.isLt
  rw [Machine.Bus.s_eq, Machine.Bus.s_eq, Bus.u_not]
  split <;> split <;> omega

/-- The signed value of a sum of words is the signed sum brought into range by 65536. -/
theorem Bus.s_add (a b : Bus16) :
    Bus.s (a + b) =
      (if Bus.s a + Bus.s b > 32767 then Bus.s a + Bus.s b - 65536
        else if Bus.s a + Bus.s b < -32768 then Bus.s a + Bus.s b + 65536
        else Bus.s a + Bus.s b) := by
  have bound_a : Bus.u a < 65536 := a.isLt
  have bound_b : Bus.u b < 65536 := b.isLt
  have sum : Bus.u (a + b) = (Bus.u a + Bus.u b) % 65536 := Bus.u_add a b
  rw [Machine.Bus.s_eq a, Machine.Bus.s_eq b, Machine.Bus.s_eq (a + b), sum]
  generalize Bus.u a = u at *
  generalize Bus.u b = v at *
  split_ifs <;> omega

/-! ### The ALU under its named control words (R71) -/

/-- The function each label of R71 stands for (GK8). -/
def AluLabel.function (x y : Bus16) : AluLabel → Bus16
  | .zero => 0
  | .one => 1
  | .minusOne => -1
  | .x => x
  | .y => y
  | .notX => ~~~x
  | .notY => ~~~y
  | .negX => -x
  | .negY => -y
  | .incX => x + 1
  | .incY => y + 1
  | .decX => x - 1
  | .decY => y - 1
  | .addXY => x + y
  | .subXY => x - y
  | .subYX => y - x
  | .andXY => x &&& y
  | .orXY => x ||| y

/-- Under a label's control word the ALU's result is the label's function. The zeroed and inverted operand of the rows
X, Y, NOT X and NOT Y is all ones, OR is by De Morgan, and the other rows are two's-complement arithmetic. -/
theorem aluResult_control (l : AluLabel) (x y : Bus16) :
    Machine.aluResult x y (Bus.pos l.control 0) (Bus.pos l.control 1) (Bus.pos l.control 2) (Bus.pos l.control 3)
      (Bus.pos l.control 4) (Bus.pos l.control 5) = l.function x y := by
  rw [Machine.aluResult_eq, Machine.aluOperand_eq, Machine.aluOperand_eq]
  cases l
  all_goals simp [Bus.pos, AluLabel.control, Bus.ofNum, AluLabel.code, AluLabel.function]
  case x | notX => exact BitVec.and_allOnes
  case y | notY => exact BitVec.allOnes_and
  case orXY => rw [BitVec.not_and, BitVec.not_not, BitVec.not_not]
  all_goals bv_omega

/-- The whole operation under a label's control word: its function's result, and the flags of that result. -/
theorem exec_aluUnder (l : AluLabel) (x y : Bus16) (s : Machine.State) :
    Machine.exec (aluUnder l.control x y) s =
      .next (s.give none
        [(.out, Bus.signals (l.function x y)), (.zr, [decide (Bus.u (l.function x y) = 0)]),
          (.ng, [decide (Bus.s (l.function x y) < 0)])]) := by
  rw [aluUnder, Machine.exec_alu, Machine.zeroFlag_eq, Machine.negativeFlag_eq, aluResult_control]

/-! ### The obligations -/

/-- Settles O4, by the three tables. -/
theorem andOrXorComplete : Obligations.AndOrXorComplete := fun a b s => by
  rw [Machine.exec_and, Machine.exec_or, Machine.exec_xor, Machine.andGate_eq, Machine.orGate_eq, Machine.xorGate_eq]
  cases a <;> cases b <;> exact ⟨rfl, rfl, rfl⟩

/-- Settles O6, by the table of decision D4. -/
theorem dmuxCompletes : Obligations.DmuxCompletes := fun inp sel s => by
  rw [Machine.exec_dmux, Machine.dmuxGate_eq]
  cases inp <;> cases sel <;> rfl

/-- Settles O7: the gate inverts the word, and each view of the inverted word is as stated. -/
theorem not16Completes : Obligations.Not16Completes := fun a s => by
  refine ⟨~~~a, Machine.exec_not16 a s, fun i inside => ?_, Bus.u_not a, Bus.s_not a⟩
  rw [Machine.Bus.pos_not a inside]
  cases Bus.pos a i <;> rfl

/-- Settles O8: the gates are the word's AND and OR, position by position. -/
theorem and16Or16Complete : Obligations.And16Or16Complete := fun a b s => by
  refine ⟨a &&& b, a ||| b, Machine.exec_and16 a b s, Machine.exec_or16 a b s, fun i _ => ?_⟩
  rw [Machine.Bus.pos_and, Machine.Bus.pos_or]
  cases Bus.pos a i <;> cases Bus.pos b i <;> exact ⟨rfl, rfl⟩

/-- Settles O15: the adder is the addition of words, read as signed by `Bus.s_add`. -/
theorem adderSignedWrap : Obligations.AdderSignedWrap := fun a b s =>
  ⟨a + b, by rw [Machine.exec_add16, Machine.add16Gate_eq], Bus.s_add a b⟩

/-- Settles O17, label by label of `exec_aluUnder`. -/
theorem aluNamedFunctions : Obligations.AluNamedFunctions := fun x y s =>
  have gives (l : AluLabel) := exec_aluUnder l x y s
  ⟨gives .zero, gives .one, gives .minusOne, gives .x, gives .y, gives .notX, gives .notY, gives .negX, gives .negY,
    gives .incX, gives .incY, gives .decX, gives .decY, gives .addXY, gives .subXY, gives .subYX, gives .andXY,
    gives .orXY⟩

end Sys2Proof
end

section
/-! PROOFS. The machine's steps (70_reset_and_hazards.md): what each request of the host can do, the invariant that
every step keeps, construction (R220, R222), and the steps that are refused (R223, R233). -/

namespace Sys2Proof.Machine

/-! ### What a run, a cycle and a construction do -/

/-- Everything a run of operations keeps: the canonical form, the wiring and the host's queue. -/
theorem runAll_keeps {is : List Instr} {s t : State} {outs : List Output} (h : s.wf)
    (e : runAll is s outs = .next t) : t.wf ∧ t.system = s.system ∧ t.pending = s.pending := by
  induction is generalizing s outs with
  | nil =>
    cases e
    exact ⟨State.wf_congr h (fun z => by cases z <;> rfl) rfl rfl rfl rfl, rfl, rfl⟩
  | cons i is ih =>
    obtain ⟨s', completes⟩ := everyOperationCompletes i s
    obtain ⟨wf', system', pending'⟩ := exec_keeps h completes
    simp only [runAll, completes] at e
    obtain ⟨wf, system, pending⟩ := ih wf' e
    exact ⟨wf, system.trans system', pending.trans pending'⟩

/-- Every run of operations completes. -/
theorem runAll_completes (is : List Instr) (s : State) (outs : List Output) : ∃ t, runAll is s outs = .next t := by
  induction is generalizing s outs with
  | nil => exact ⟨_, rfl⟩
  | cons i is ih =>
    obtain ⟨s', completes⟩ := everyOperationCompletes i s
    obtain ⟨t, run⟩ := ih s' (outs ++ s'.outputs)
    exact ⟨t, by simp only [runAll, completes, run]⟩

/-- The three things a cycle can do: it is refused for its wiring or its row, it completes as the run of its operations
does with the nets listed after the outputs, or it fails as its evaluations do. -/
theorem runCycle_cases (row : Row) (s : State) :
    (∃ e, (s.system.check = .error e ∨ s.system.checkRow row = .error e) ∧
      runCycle row s = .refused (.scriptError e)) ∨
    (∃ is nets u, evaluateCycle s row = .ok (is, nets) ∧ runAll is s [] = .next u ∧
      runCycle row s = .next { u with outputs := u.outputs ++ nets }) ∨
    ∃ es, evaluateCycle s row = .error es ∧ runCycle row s = failCycle es := by
  unfold runCycle
  cases checked : s.system.check with
  | error e => exact .inl ⟨e, .inl rfl, rfl⟩
  | ok _ =>
    cases fits : s.system.checkRow row with
    | error e => exact .inl ⟨e, .inr rfl, rfl⟩
    | ok _ =>
      cases evaluated : evaluateCycle s row with
      | error es => exact .inr (.inr ⟨es, rfl, rfl⟩)
      | ok r =>
        obtain ⟨is, nets⟩ := r
        obtain ⟨u, run⟩ := runAll_completes is s []
        exact .inr (.inl ⟨is, nets, u, rfl, run, by simp only [run]⟩)

/-- The two things a cycle without values can do: it is refused for a script error among its errors, or, where there is
none, it fails with the errors its components raised. -/
theorem failCycle_cases (es : List EvalError) :
    (∃ e, .script e ∈ es ∧ failCycle es = .refused (.scriptError e)) ∨
    (∀ e, .script e ∉ es) ∧ failCycle es = .fault (.cycleFailed (raisedErrors es)) := by
  unfold failCycle
  dsimp only
  split
  case h_1 e rest found =>
    obtain ⟨x, x_mem, script⟩ := List.mem_filterMap.mp (found ▸ List.mem_cons_self .. : e ∈ _)
    cases x <;> cases script
    exact .inl ⟨e, x_mem, rfl⟩
  case h_2 none_found =>
    refine .inr ⟨fun e e_mem => ?_, rfl⟩
    exact absurd (List.filterMap_eq_nil_iff.mp none_found _ e_mem) (by simp)

/-- Everything that makes a cycle complete. -/
theorem runCycle_next {row : Row} {s t : State} (h : runCycle row s = .next t) :
    ∃ is nets u, evaluateCycle s row = .ok (is, nets) ∧ runAll is s [] = .next u ∧
      t = { u with outputs := u.outputs ++ nets } := by
  obtain ⟨e, -, refused⟩ | ⟨is, nets, u, evaluated, run, completes⟩ | ⟨es, -, fails⟩ := runCycle_cases row s
  · cases h.symm.trans refused
  · cases h.symm.trans completes
    exact ⟨is, nets, u, evaluated, run, rfl⟩
  · obtain ⟨e, -, refused⟩ | ⟨-, failed⟩ := failCycle_cases es
    · cases (h.symm.trans fails).trans refused
    · cases (h.symm.trans fails).trans failed

/-- Everything that makes a cycle fail: some evaluation gave no value, and the errors raised are those reported. -/
theorem runCycle_failed {row : Row} {s : State} {reported : List PortError}
    (h : runCycle row s = .fault (.cycleFailed reported)) :
    ∃ es, evaluateCycle s row = .error es ∧ reported = raisedErrors es := by
  obtain ⟨e, -, refused⟩ | ⟨is, nets, u, -, -, completes⟩ | ⟨es, evaluated, fails⟩ := runCycle_cases row s
  · cases h.symm.trans refused
  · cases h.symm.trans completes
  · obtain ⟨e, -, refused⟩ | ⟨-, failed⟩ := failCycle_cases es
    · cases (h.symm.trans fails).trans refused
    · cases (h.symm.trans fails).trans failed
      exact ⟨es, evaluated, rfl⟩

/-- An operation is done by exec, where it is done at all. -/
theorem evaluateOperation_next {op : RawOp} {s t : State} (h : evaluateOperation op s = .next t) :
    ∃ i, decode op = .ok i ∧ exec i s = .next t := by
  unfold evaluateOperation at h
  split at h
  case h_1 => cases h
  case h_2 i decoded =>
    split at h
    case isTrue => cases h
    case isFalse => exact ⟨i, decoded, h⟩

/-- A wiring is taken where it is well formed. -/
theorem constructSystem_next {sys : System} {s t : State} (h : constructSystem sys s = .next t) :
    sys.WellFormed = true ∧ t = { sys.insts.foldl State.construct s with system := sys, outputs := [] } := by
  unfold constructSystem at h
  split at h
  case h_1 => cases h
  case h_2 passed => cases h; exact ⟨by rw [System.WellFormed, passed], rfl⟩

/-- A well-formed wiring passes its check. -/
theorem check_of_wellFormed {sys : System} (h : sys.WellFormed = true) : sys.check = .ok () := by
  obtain ⟨⟨⟨⟩, passed⟩, -⟩ := System.checked h
  exact passed

/-- The one thing a construction does (R220, R222). -/
theorem constructSystem_of_wellFormed {sys : System} (h : sys.WellFormed = true) (s : State) :
    constructSystem sys s = .next { sys.insts.foldl State.construct s with system := sys, outputs := [] } := by
  rw [constructSystem, check_of_wellFormed h]

/-- An ill-formed wiring fails its check. -/
theorem check_of_illFormed {sys : System} (h : sys.WellFormed = false) : ∃ e, sys.check = .error e := by
  unfold System.WellFormed at h
  split at h
  case h_1 => cases h
  case h_2 e failed => exact ⟨e, failed⟩

theorem checkRow_of_not_fits {sys : System} {row : Row} (h : Row.fits sys row = false) :
    ∃ e, sys.checkRow row = .error e := by
  unfold Row.fits at h
  split at h
  case h_1 => cases h
  case h_2 e failed => exact ⟨e, failed⟩

/-! ### Construction, instance by instance -/

theorem construct_pending (s : State) (d : InstDecl) : (s.construct d).pending = s.pending := by
  simp only [State.construct]
  split <;> simp

/-- Constructing a list of instances keeps the canonical form. -/
theorem foldl_construct_wf {s : State} (h : s.wf) (ds : List InstDecl) : (ds.foldl State.construct s).wf := by
  induction ds generalizing s with
  | nil => exact h
  | cons d ds ih => exact ih (State.wf_construct h d)

theorem foldl_construct_pending (s : State) (ds : List InstDecl) :
    (ds.foldl State.construct s).pending = s.pending := by
  induction ds generalizing s with
  | nil => rfl
  | cons d ds ih => exact (ih (s.construct d)).trans (construct_pending s d)

/-- Constructing a list of instances leaves every instance that is not listed. -/
theorem foldl_construct_other {ds : List InstDecl} {c : Comp} {n : Ident} (h : (⟨n, c⟩ : InstDecl) ∉ ds) (s : State) :
    SameInstance c n s (ds.foldl State.construct s) := by
  induction ds generalizing s with
  | nil => exact SameInstance.rfl' c n s
  | cons d ds ih =>
    obtain ⟨ne, rest⟩ := List.ne_and_not_mem_of_not_mem_cons h
    exact (construct_other ne).trans' (ih rest (s.construct d))

/-- Constructing a list of instances leaves each listed instance zero, whatever is constructed after it. -/
theorem foldl_construct_zero {ds : List InstDecl} {d : InstDecl} (h : d ∈ ds) (s : State) :
    ZeroInstance d.comp d.name (ds.foldl State.construct s) := by
  induction ds generalizing s with
  | nil => cases h
  | cons d' ds ih =>
    by_cases later : d ∈ ds
    · exact ih later (s.construct d')
    · obtain rfl : d = d' := (List.mem_cons.mp h).resolve_right later
      exact (construct_zero s d).trans' (foldl_construct_other later (s.construct d))

/-- The wiring, the outputs and the queue are no part of an instance. -/
theorem SameInstance.with_wiring {c : Comp} {n : Ident} {s t : State} (h : SameInstance c n s t) (sys : System)
    (outs : List Output) (pending : List HostInput) :
    SameInstance c n s { t with system := sys, outputs := outs, pending := pending } :=
  h.congr' (fun z => by cases z <;> rfl) rfl rfl rfl rfl

/-- The wiring, the outputs and the queue are no part of the canonical form. -/
theorem State.wf_with_wiring {s : State} (h : s.wf) (sys : System) (outs : List Output) (pending : List HostInput) :
    State.wf { s with system := sys, outputs := outs, pending := pending } :=
  State.wf_congr h (fun z => by cases z <;> rfl) rfl rfl rfl rfl

/-- Every request of the host keeps the invariant: an operation and a cycle run operations, which keep the stores
canonical and the wiring, and a construction takes a wiring that passed its check. -/
theorem perform_keeps_inv {request : HostInput} {s t : State} (h : Inv s) (e : perform request s = .next t) :
    Inv t := by
  obtain ⟨wf, wired⟩ := h
  cases request with
  | operation op =>
    obtain ⟨i, -, run⟩ := evaluateOperation_next e
    obtain ⟨wf', system, -⟩ := exec_keeps wf run
    exact ⟨wf', system ▸ wired⟩
  | cycle row =>
    obtain ⟨is, nets, u, -, run, rfl⟩ := runCycle_next e
    obtain ⟨wf', system, -⟩ := runAll_keeps wf run
    exact ⟨State.wf_with_wiring wf' u.system _ u.pending, system ▸ wired⟩
  | construct sys =>
    obtain ⟨wired', rfl⟩ := constructSystem_next e
    exact ⟨State.wf_with_wiring (foldl_construct_wf wf sys.insts) sys [] _, wired'⟩

/-- A step does the oldest request on the state without it. -/
theorem step_of_pending {s : State} {request : HostInput} {rest : List HostInput} (h : s.pending = request :: rest) :
    step s = perform request { s with pending := rest } := by
  rw [step, h]

/-- The one thing evaluating an operation that decodes does. -/
theorem evaluateOperation_of_decode {op : RawOp} {i : Instr} (h : decode op = .ok i) (s : State) :
    evaluateOperation op s =
      if i.comp.stateful && s.wired i.comp i.inst then .refused (.steppedOutsideCycle i.comp i.inst) else exec i s := by
  rw [evaluateOperation, h]

theorem wired_eq_true_iff {s : State} {c : Comp} {n : Ident} :
    s.wired c n = true ↔ (⟨n, c⟩ : InstDecl) ∈ s.system.insts := List.contains_iff_mem

/-- An operation that names no instance of the system is done by exec. -/
theorem evaluateOperation_of_not_wired {op : RawOp} {i : Instr} {s : State} (decoded : decode op = .ok i)
    (outside : (⟨i.inst, i.comp⟩ : InstDecl) ∉ s.system.insts) : evaluateOperation op s = exec i s := by
  have not_wired : s.wired i.comp i.inst = false := by
    rw [Bool.eq_false_iff, Ne, wired_eq_true_iff]
    exact outside
  simp [evaluateOperation_of_decode decoded, not_wired]

/-! ### What an instance returns, by its state before the edge -/

/-- What a LATCH, a BIT, a REGISTER or a PC holds (R226), as the signals it returns. -/
def State.cellSignals (s : State) (n : Ident) : Comp → List Signal
  | .latch => [s.peekLatch n]
  | .bit => [s.peekBit n]
  | .register => Bus.signals (s.peekRegister n)
  | .pc => Bus.signals (s.peekPc n)
  | _ => []

/-- Every operation of a LATCH, a BIT, a REGISTER or a PC returns what the instance held before the edge (R153). -/
theorem returned_of_cell {i : Instr} (stateful : i.comp.stateful = true) (no_ram : i.comp.ramSize? = none) (s : State) :
    returned (exec i s) = some [⟨some i.inst, .out, s.cellSignals i.inst i.comp⟩] := by
  cases i
  case latch n inp => rw [exec_latch]; rfl
  case bit n inp load => exact returned_bit n inp load s
  case register n inp load => exact returned_register n inp load s
  case pcReset n inp increment load => exact returned_pcOperation n inp load s increment true
  case pcLoad n inp increment => exact returned_pcOperation n inp true s increment false
  case pcInc n inp => exact returned_pcOperation n inp false s true false
  case pcHold n inp => exact returned_pcOperation n inp false s false false
  case ram8 | ram64 | ram512 | ram4k | ram16k => nomatch no_ram
  all_goals nomatch stateful

end Sys2Proof.Machine

namespace Sys2Proof

/-! ### The obligations -/

/-- Settles O46: every request keeps the invariant (`Machine.perform_keeps_inv`), and an idle step changes nothing. -/
theorem stepKeepsInvariant : Obligations.StepKeepsInvariant := by
  intro s t inv h
  obtain ⟨wf, wired⟩ := inv
  cases asked : s.pending with
  | nil =>
    rw [noRequestNoChange s asked] at h
    cases h
    exact ⟨wf, wired⟩
  | cons request rest =>
    rw [Machine.step_of_pending asked] at h
    exact Machine.perform_keeps_inv ⟨Machine.State.wf_with_wiring wf s.system s.outputs rest, wired⟩ h

/-- Settles O45: every store is empty at reset, and the empty wiring passes its check. -/
theorem resetInvariant : Obligations.ResetInvariant := ⟨Machine.State.reset_wf, rfl⟩

/-- Settles O38: what an instance returns is what it held, or the word its address indexes. -/
theorem outputsIgnoreOtherInputs : Obligations.OutputsIgnoreOtherInputs := by
  refine ⟨fun i j s stateful no_ram same_comp same_inst => ?_, fun z n address inp inp' load load' s => ?_⟩
  · rw [Machine.returned_of_cell stateful no_ram, Machine.returned_of_cell (same_comp ▸ stateful) (same_comp ▸ no_ram),
      same_comp, same_inst]
  · rw [Machine.returned_ramOperation, Machine.returned_ramOperation]

/-- Settles O41: the step constructs the wiring's instances one after another and takes the wiring. -/
theorem constructionMakesAnew : Obligations.ConstructionMakesAnew := by
  intro s sys rest asked wired
  refine ⟨_, (Machine.step_of_pending asked).trans (Machine.constructSystem_of_wellFormed wired _), rfl, ?_, rfl,
    fun d listed => ?_, fun c n outside => ?_⟩
  · exact Machine.foldl_construct_pending _ sys.insts
  · exact (Machine.foldl_construct_zero listed _).with_wiring sys [] _
  · have unlisted := Machine.foldl_construct_other outside { s with pending := rest }
    exact ((Machine.SameInstance.rfl' c n s).with_wiring s.system s.outputs rest).trans'
      (unlisted.with_wiring sys [] _)

/-- Settles O42: the step does the operation, which is done by exec. -/
theorem stepRunsDecodedOperation : Obligations.StepRunsDecodedOperation := fun s op rest i asked decoded outside => by
  rw [Machine.step_of_pending asked]
  exact Machine.evaluateOperation_of_not_wired decoded outside

/-- Settles O43: the word's operation stands first in the queue, and no instance is wired. -/
theorem fetchWordRunsNext : Obligations.FetchWordRunsNext := by
  intro s nbits w i reads
  have decoded : decode (tableOp nbits w) = .ok i := by
    unfold decodeTableWord at reads
    split at reads
    case h_1 decoded => cases reads; exact decoded
    case h_2 => cases reads
  exact stepRunsDecodedOperation (s.withFetchWord nbits w) (tableOp nbits w) s.pending i rfl decoded List.not_mem_nil

/-- Settles O53: the operation decodes, and its instance is wired. -/
theorem wiredInstanceStepsInCycleOnly : Obligations.WiredInstanceStepsInCycleOnly := by
  intro s op rest i asked decoded stateful inside
  have wired : Machine.State.wired { s with pending := rest } i.comp i.inst = true :=
    Machine.wired_eq_true_iff.mpr inside
  rw [Machine.step_of_pending asked, Machine.perform, Machine.evaluateOperation_of_decode decoded, stateful, wired]
  rfl

/-- Settles O56: construction and cycle check the wiring before all else, and a cycle its row next. -/
theorem illFormedWiringRefused : Obligations.IllFormedWiringRefused := by
  refine ⟨fun s sys rest asked ill => ?_, fun s row rest asked ill => ?_, fun s row rest asked unfit => ?_⟩
  · obtain ⟨e, failed⟩ := Machine.check_of_illFormed ill
    exact ⟨e, by rw [Machine.step_of_pending asked, Machine.perform, Machine.constructSystem, failed]⟩
  · obtain ⟨e, failed⟩ := Machine.check_of_illFormed ill
    exact ⟨e, by rw [Machine.step_of_pending asked, Machine.perform, Machine.runCycle, failed]⟩
  · obtain ⟨e', row_failed⟩ := Machine.checkRow_of_not_fits unfit
    rw [Machine.step_of_pending asked, Machine.perform, Machine.runCycle]
    cases s.system.check with
    | error e => exact ⟨e, rfl⟩
    | ok _ => exact ⟨e', by simp only [row_failed]⟩

end Sys2Proof
end

section
/-! PROOFS. The clock cycle of a system (42_sequential.md section 3, 70_reset_and_hazards.md section 2): a cycle steps
each instance once, each from the state before the edge, in any order (R154, R223, R224), and a failed cycle reports the
errors its evaluations raised (R202, R205). -/

namespace Sys2Proof

/-! ### The instances of a well-formed wiring -/

/-- Everything the check of an instance gives. -/
theorem System.checkInst_ok {sys : System} {d : InstDecl} {u : Unit} (h : sys.checkInst d = .ok u) :
    d.comp.stateful = true ∧ ∃ line, sys.drive? d.name = some line := by
  unfold System.checkInst at h
  split at h
  case isTrue => cases h
  case isFalse declared =>
    split at h
    case h_1 line driven => exact ⟨by simpa using declared, line, driven⟩
    case h_2 => cases h

/-- No two instances of a well-formed wiring share a name. -/
theorem System.Checked.inst_names_nodup {sys : System} (h : sys.Checked) : (sys.insts.map InstDecl.name).Nodup := by
  have names := h.names
  unfold System.names at names
  exact names.of_append_left.of_append_left

end Sys2Proof

namespace Sys2Proof.Machine

/-! ### Operations of distinct instances -/

/-- Two states agree on a memory block exactly if they agree on its every word. -/
theorem sameInstance_ram_iff {z : RamSize} {n : Ident} {s t : State} :
    SameInstance z.comp n s t ↔ ∀ a, (t.peekRam z n).word a = (s.peekRam z n).word a := by
  cases z <;> rfl

/-- A memory block's operation is determined by the block's words. -/
theorem exec_ramOperation_congr {z : RamSize} {n : Ident} {inp : Bus16} {address : Bus z.addressWidth} {load : Signal}
    {s s' t t' : State} (same : SameInstance z.comp n s s') (e : exec (z.operation n inp address load) s = .next t)
    (e' : exec (z.operation n inp address load) s' = .next t') :
    SameInstance z.comp n t t' ∧ t'.outputs = t.outputs := by
  have same_word := sameInstance_ram_iff.mp same
  obtain ⟨t₁, c, outputs, words, -⟩ := exec_ramOperation_stepped z n inp address load s
  obtain ⟨t₂, c', outputs', words', -⟩ := exec_ramOperation_stepped z n inp address load s'
  cases c.symm.trans e
  cases c'.symm.trans e'
  refine ⟨sameInstance_ram_iff.mpr fun a => ?_, ?_⟩
  · rw [words, words', same_word]
  · rw [outputs, outputs', same_word]

/-- A PC's operation is determined by the PC's word. -/
theorem exec_pcOperation_congr {n : Ident} {inp : Bus16} {increment load reset : Signal} {s s' t t' : State}
    (same : SameInstance .pc n s s') (e : exec (pcOperation n inp increment load reset) s = .next t)
    (e' : exec (pcOperation n inp increment load reset) s' = .next t') :
    SameInstance .pc n t t' ∧ t'.outputs = t.outputs := by
  have same_word : s'.peekPc n = s.peekPc n := same
  obtain ⟨t₁, c, outputs, word, -⟩ := exec_pcOperation_stepped n inp increment load reset s
  obtain ⟨t₂, c', outputs', word', -⟩ := exec_pcOperation_stepped n inp increment load reset s'
  cases c.symm.trans e
  cases c'.symm.trans e'
  exact ⟨by rw [SameInstance, word, word', same_word], by rw [outputs, outputs', same_word]⟩

/-- What an operation leaves in its instance and returns is determined by the instance: no other cell is read. -/
theorem exec_congr {i : Instr} {s s' t t' : State} (stateful : i.comp.stateful = true)
    (same : SameInstance i.comp i.inst s s') (e : exec i s = .next t) (e' : exec i s' = .next t') :
    SameInstance i.comp i.inst t t' ∧ t'.outputs = t.outputs := by
  cases i
  case latch n inp =>
    have same_cell : s'.peekLatch n = s.peekLatch n := same
    cases e; cases e'
    exact ⟨by simp [SameInstance, Instr.comp, Instr.inst], by simp [same_cell]⟩
  case bit n inp load =>
    have same_cell : s'.peekBit n = s.peekBit n := same
    rw [exec_bit] at e e'
    cases e; cases e'
    exact ⟨by simp [SameInstance, Instr.comp, Instr.inst, same_cell], by simp [same_cell]⟩
  case register n inp load =>
    have same_cell : s'.peekRegister n = s.peekRegister n := same
    rw [exec_register] at e e'
    cases e; cases e'
    exact ⟨by simp [SameInstance, Instr.comp, Instr.inst, same_cell], by simp [same_cell]⟩
  case ram8 => exact exec_ramOperation_congr (z := .ram8) same e e'
  case ram64 => exact exec_ramOperation_congr (z := .ram64) same e e'
  case ram512 => exact exec_ramOperation_congr (z := .ram512) same e e'
  case ram4k => exact exec_ramOperation_congr (z := .ram4k) same e e'
  case ram16k => exact exec_ramOperation_congr (z := .ram16k) same e e'
  case pcReset n inp increment load =>
    exact exec_pcOperation_congr (increment := increment) (load := load) (reset := true) same e e'
  case pcLoad n inp increment =>
    exact exec_pcOperation_congr (increment := increment) (load := true) (reset := false) same e e'
  case pcInc => exact exec_pcOperation_congr (increment := true) (load := false) (reset := false) same e e'
  case pcHold => exact exec_pcOperation_congr (increment := false) (load := false) (reset := false) same e e'
  all_goals nomatch stateful

/-- The two operations step one instance. -/
def SameTarget (i j : Instr) : Prop := i.comp = j.comp ∧ i.inst = j.inst

/-- What the operation returns from this state. -/
def outputsFrom (s : State) (i : Instr) : List Output := (returned (exec i s)).getD []

theorem outputsFrom_of_next {i : Instr} {s t : State} (e : exec i s = .next t) : outputsFrom s i = t.outputs := by
  rw [outputsFrom, e]
  rfl

/-- A run of operations of distinct instances from the state s, as the simultaneous edge (R154): each instance is as its
own operation leaves it from s, every other is as in s, and each operation returned what it returns from s. -/
structure RunsAtOnce (is : List Instr) (s : State) (outs : List Output) (t : State) : Prop where
  own : ∀ i ∈ is, ∃ t', exec i s = .next t' ∧ SameInstance i.comp i.inst t' t
  others : ∀ c n, (∀ i ∈ is, ¬(i.comp = c ∧ i.inst = n)) → SameInstance c n s t
  outputs : t.outputs = outs ++ is.flatMap (outputsFrom s)
  system : t.system = s.system
  pending : t.pending = s.pending

/-- The run of a cycle is one edge: no operation reads a cell that another one writes. -/
theorem runAll_runsAtOnce {is : List Instr} {s t : State} {outs : List Output}
    (stateful : ∀ i ∈ is, i.comp.stateful = true) (distinct : is.Pairwise fun i j => ¬SameTarget i j)
    (run : runAll is s outs = .next t) : RunsAtOnce is s outs t := by
  induction is generalizing s outs with
  | nil =>
    cases run
    exact ⟨by simp, fun c n _ => SameInstance.outputs c n s outs, by simp, rfl, rfl⟩
  | cons i is ih =>
    obtain ⟨first_differs, distinct⟩ := List.pairwise_cons.mp distinct
    obtain ⟨s', completes⟩ := everyOperationCompletes i s
    obtain ⟨frame, system', pending'⟩ := exec_stepsOnly completes
    have later {j : Instr} (hj : j ∈ is) : ¬(j.comp = i.comp ∧ j.inst = i.inst) := fun target =>
      first_differs j hj ⟨target.1.symm, target.2.symm⟩
    simp only [runAll, completes] at run
    have rest := ih (fun j hj => stateful j (List.mem_cons_of_mem _ hj)) distinct run
    have early {j : Instr} {t' : State} (hj : j ∈ is) (late : exec j s' = .next t') :
        ∃ t'', exec j s = .next t'' ∧ SameInstance j.comp j.inst t'' t' ∧ t'.outputs = t''.outputs := by
      obtain ⟨t'', first⟩ := everyOperationCompletes j s
      exact ⟨t'', first,
        exec_congr (stateful j (List.mem_cons_of_mem _ hj)) (frame _ _ (later hj)) first late⟩
    refine ⟨fun j hj => ?_, fun c n outside => ?_, ?_, rest.system.trans system', rest.pending.trans pending'⟩
    · rcases List.mem_cons.mp hj with rfl | hj
      · exact ⟨s', completes, rest.others _ _ fun k hk => later hk⟩
      · obtain ⟨t', late, same⟩ := rest.own j hj
        obtain ⟨t'', first, agree, -⟩ := early hj late
        exact ⟨t'', first, agree.trans' same⟩
    · have head := frame c n fun target => outside i (List.mem_cons_self ..) ⟨target.1.symm, target.2.symm⟩
      exact head.trans' (rest.others c n fun j hj => outside j (List.mem_cons_of_mem _ hj))
    · have same_outputs : is.flatMap (outputsFrom s') = is.flatMap (outputsFrom s) := by
        refine List.flatMap_congr fun j hj => ?_
        obtain ⟨t', late, -⟩ := rest.own j hj
        obtain ⟨t'', first, -, same⟩ := early hj late
        rw [outputsFrom_of_next late, outputsFrom_of_next first, same]
      rw [rest.outputs, same_outputs, List.flatMap_cons, outputsFrom_of_next completes, List.append_assoc]

/-- Two canonical states that agree on every instance, the wiring and the queue differ in their outputs only. -/
theorem State.eq_of_sameInstance {s t : State} (wf : s.wf) (wf' : t.wf) (same : ∀ c n, SameInstance c n s t)
    (system : t.system = s.system) (pending : t.pending = s.pending) :
    { s with outputs := [] } = { t with outputs := [] } := by
  have rams (z : RamSize) : s.rams z = t.rams z := by
    refine Store.ext_of_wf [] (wf.2.2.2.2 z).1 (wf'.2.2.2.2 z).1 fun n => ?_
    have words := sameInstance_ram_iff.mp (same z.comp n)
    exact Store.ext_of_wf _ (State.peekRam_wf wf z n).1 (State.peekRam_wf wf' z n).1 fun a => (words a).symm
  obtain ⟨hl, hb, hr, hp, -⟩ := wf
  obtain ⟨hl', hb', hr', hp', -⟩ := wf'
  have latches := Store.ext_of_wf _ hl hl' fun n => (same .latch n).symm
  have bits := Store.ext_of_wf _ hb hb' fun n => (same .bit n).symm
  have registers := Store.ext_of_wf _ hr hr' fun n => (same .register n).symm
  have pcs := Store.ext_of_wf _ hp hp' fun n => (same .pc n).symm
  cases s
  cases t
  simp only [State.mk.injEq]
  exact ⟨latches, bits, registers, rams .ram8, rams .ram64, rams .ram512, rams .ram4k, rams .ram16k, pcs, trivial,
    system.symm, pending.symm⟩

/-! ### The evaluations of a cycle -/

/-- A cycle has its values where every evaluation has one. -/
theorem evaluateCycle_ok {s : State} {row : Row} {is : List Instr} {nets : List Output}
    (h : evaluateCycle s row = .ok (is, nets)) :
    ∃ lists, collect (s.system.insts.map (instanceOp s row)) = .ok is ∧
      collect (s.system.nets.map (netOutputs s row)) = .ok lists ∧ nets = lists.flatten := by
  unfold evaluateCycle at h
  split at h
  case h_1 is' lists insts nets' => cases h; exact ⟨lists, insts, nets', rfl⟩
  all_goals cases h

/-- A cycle without values has the errors of the instances, where these are some. -/
theorem evaluateCycle_error_of_insts {s : State} {row : Row} {es es' : List EvalError}
    (h : evaluateCycle s row = .error es) (insts : collect (s.system.insts.map (instanceOp s row)) = .error es') :
    es' ⊆ es := by
  unfold evaluateCycle at h
  rw [insts] at h
  cases nets : collect (s.system.nets.map (netOutputs s row)) with
  | ok _ => rw [nets] at h; cases h; exact List.Subset.refl _
  | error _ => rw [nets] at h; cases h; exact List.subset_append_left ..

/-- Where some part failed, the list fails, with that part's errors among its own. -/
theorem collect_error_of_mem {ε α : Type} {l : List (Except (List ε) α)} {e : List ε} (h : .error e ∈ l) :
    ∃ es, collect l = .error es ∧ e ⊆ es := by
  induction l with
  | nil => cases h
  | cons r l ih =>
    rcases List.mem_cons.mp h with rfl | later
    · cases tail : collect l with
      | ok as => exact ⟨e, by simp only [collect, tail], List.Subset.refl e⟩
      | error es => exact ⟨e ++ es, by simp only [collect, tail], List.subset_append_left ..⟩
    · obtain ⟨es, failed, among⟩ := ih later
      cases r with
      | ok a => exact ⟨es, by simp only [collect, failed], among⟩
      | error e' =>
        exact ⟨e' ++ es, by simp only [collect, failed], List.Subset.trans among (List.subset_append_right ..)⟩

/-- A list of values is collected as it is. -/
theorem collect_map_ok {ε α : Type} (as : List α) : collect (as.map (.ok : α → Except (List ε) α)) = .ok as := by
  induction as with
  | nil => rfl
  | cons a as ih => simp only [List.map_cons, collect, ih]

/-- The operation of an evaluation is one of its component, and of its instance where the component has instances. -/
theorem evaluation_target {own : PortError → EvalError} {c : Comp} {n : Ident}
    {ins : List (Except (List EvalError) RawBus)} {i : Instr} (stateful : c.stateful = true)
    (h : evaluation own c n ins = .ok i) : i.comp = c ∧ i.inst = n := by
  obtain ⟨vs, -, decoded⟩ := evaluation_ok h
  obtain ⟨comp, -, inst⟩ := encodeDecode _ i decoded
  exact ⟨comp, inst stateful⟩

/-- A well-formed wiring declares stateful instances only. -/
theorem stateful_of_wellFormed {sys : System} (h : sys.WellFormed = true) {d : InstDecl} (hd : d ∈ sys.insts) :
    d.comp.stateful = true := by
  obtain ⟨u, passed⟩ := (System.checked h).insts d hd
  exact (System.checkInst_ok passed).1

/-- A well-formed wiring declares each instance once. -/
theorem insts_nodup_of_wellFormed {sys : System} (h : sys.WellFormed = true) : sys.insts.Nodup :=
  List.Nodup.of_map _ (System.checked h).inst_names_nodup

/-- The operations of a cycle name the instances of a well-formed wiring one by one (R223). -/
theorem evaluateCycle_targets {s : State} {row : Row} {is : List Instr} {nets : List Output}
    (wired : s.system.WellFormed = true) (h : evaluateCycle s row = .ok (is, nets)) :
    is.map (fun i => (⟨i.inst, i.comp⟩ : InstDecl)) = s.system.insts := by
  obtain ⟨lists, insts, -, -⟩ := evaluateCycle_ok h
  refine List.ext_getElem ?_ fun k hi hd => ?_
  · rw [List.length_map, (collect_ok _ insts).length_eq]
  · have value := (collect_ok _ insts).get hd (by simpa using hi)
    have stateful := stateful_of_wellFormed wired (List.getElem_mem hd)
    obtain ⟨comp, inst⟩ := evaluation_target stateful value
    rw [List.getElem_map]
    exact congrArg₂ InstDecl.mk inst comp

/-- The operations of a cycle of a well-formed wiring are of stateful components, no two of one instance. -/
theorem evaluateCycle_distinct {s : State} {row : Row} {is : List Instr} {nets : List Output}
    (wired : s.system.WellFormed = true) (h : evaluateCycle s row = .ok (is, nets)) :
    (∀ i ∈ is, i.comp.stateful = true) ∧ is.Pairwise fun i j => ¬SameTarget i j := by
  have targets := evaluateCycle_targets wired h
  refine ⟨fun i hi => ?_, ?_⟩
  · have declared : (⟨i.inst, i.comp⟩ : InstDecl) ∈ s.system.insts := targets ▸ List.mem_map_of_mem hi
    exact stateful_of_wellFormed wired declared
  · have nodup := insts_nodup_of_wellFormed wired
    rw [← targets, List.Nodup, List.pairwise_map] at nodup
    exact nodup.imp fun differ target => differ (congrArg₂ InstDecl.mk target.2 target.1)

/-! ### The errors of a failed cycle -/

theorem mem_distinct {α : Type} [DecidableEq α] {l : List α} {a : α} : a ∈ distinct l ↔ a ∈ l := by
  induction l with
  | nil => simp [distinct]
  | cons b l ih =>
    by_cases same : a = b <;> simp [distinct, ih, same]

/-- An instance's own error is reported. -/
theorem mem_raisedErrors_of_step {es : List EvalError} {n : Ident} {e : PortError} (h : .step n e ∈ es) :
    e ∈ raisedErrors es :=
  mem_distinct.mpr (List.mem_filterMap.mpr ⟨.step n e, h, rfl⟩)

/-- What the readers of a memory block got is not reported beside the block's own error (R205). -/
theorem raisedErrors_address {es es' : List EvalError} {n : Ident} {e x : PortError} (h : .step n e ∈ es ++ es') :
    raisedErrors (es ++ .address n x :: es') = raisedErrors (es ++ es') := by
  have same_raised (m : Ident) : (es ++ .address n x :: es').any (stepRaised m) = (es ++ es').any (stepRaised m) := by
    simp [stepRaised]
  have own : (es ++ es').any (stepRaised n) = true := List.any_eq_true.mpr ⟨_, h, by simp [stepRaised]⟩
  simp only [raisedErrors, same_raised, List.filterMap_append, List.filterMap_cons, own, if_true]

end Sys2Proof.Machine

namespace Sys2Proof

/-! ### The obligations -/

/-- Settles O47: a completed cycle has run the operations evaluated, which name the instances one by one. -/
theorem cycleStepsEachInstanceOnce : Obligations.CycleStepsEachInstanceOnce := by
  intro s t row wired completes
  obtain ⟨is, nets, u, evaluated, run, rfl⟩ := Machine.runCycle_next completes
  exact ⟨is, nets, u, evaluated, Machine.evaluateCycle_targets wired evaluated,
    Machine.insts_nodup_of_wellFormed wired, run, rfl⟩

/-- Settles O48: the run of the cycle is one edge (`Machine.runAll_runsAtOnce`). -/
theorem cycleIsSimultaneous : Obligations.CycleIsSimultaneous := by
  intro s t row wired completes
  obtain ⟨is, nets, u, evaluated, run, rfl⟩ := Machine.runCycle_next completes
  obtain ⟨stateful, distinct⟩ := Machine.evaluateCycle_distinct wired evaluated
  have edge := Machine.runAll_runsAtOnce stateful distinct run
  refine ⟨is, nets, evaluated, fun i hi => ?_, fun c n outside => ?_, edge.system, edge.pending⟩
  · obtain ⟨t', own, same⟩ := edge.own i hi
    refine ⟨t', own, same.with_wiring _ _ _, fun o ho => ?_⟩
    rw [edge.outputs, List.nil_append]
    refine List.mem_append_left _ (List.mem_flatMap.mpr ⟨i, hi, ?_⟩)
    rwa [Machine.outputsFrom_of_next own]
  · refine (edge.others c n fun i hi target => outside ?_).with_wiring _ _ _
    rw [← Machine.evaluateCycle_targets wired evaluated]
    exact List.mem_map.mpr ⟨i, hi, congrArg₂ InstDecl.mk target.2 target.1⟩

/-- Settles O49: either order is one edge from the same state, so the two leave the same instances. -/
theorem stepOrderIsIrrelevant : Obligations.StepOrderIsIrrelevant := by
  intro s t t' is is' wf perm stateful distinct run run'
  have edge := Machine.runAll_runsAtOnce stateful distinct run
  have edge' := Machine.runAll_runsAtOnce (fun i hi => stateful i (perm.mem_iff.mpr hi))
    (perm.pairwise distinct fun differ target => differ ⟨target.1.symm, target.2.symm⟩) run'
  obtain ⟨wf_t, -, -⟩ := Machine.runAll_keeps wf run
  obtain ⟨wf_t', -, -⟩ := Machine.runAll_keeps wf run'
  refine ⟨Machine.State.eq_of_sameInstance wf_t wf_t' (fun c n => ?_) (edge'.system.trans edge.system.symm)
    (edge'.pending.trans edge.pending.symm), ?_⟩
  · by_cases stepped : ∃ i ∈ is, i.comp = c ∧ i.inst = n
    · obtain ⟨i, hi, rfl, rfl⟩ := stepped
      obtain ⟨u, own, same⟩ := edge.own i hi
      obtain ⟨u', own', same'⟩ := edge'.own i (perm.mem_iff.mp hi)
      cases own.symm.trans own'
      exact same.symm'.trans' same'
    · have outside : ∀ i ∈ is, ¬(i.comp = c ∧ i.inst = n) := fun i hi target => stepped ⟨i, hi, target⟩
      exact (edge.others c n outside).symm'.trans'
        (edge'.others c n fun i hi => outside i (perm.mem_iff.mpr hi))
  · rw [edge.outputs, edge'.outputs]
    exact perm.flatMap_right _

/-- Settles O50: a completed cycle has a value of every evaluation. -/
theorem failedCycleStepsNothing : Obligations.FailedCycleStepsNothing := by
  intro s row d es hd failed t completes
  obtain ⟨is, nets, u, evaluated, -, -⟩ := Machine.runCycle_next completes
  obtain ⟨lists, insts, -, -⟩ := Machine.evaluateCycle_ok evaluated
  obtain ⟨es', error, -⟩ := Machine.collect_error_of_mem (List.mem_map.mpr ⟨d, hd, failed⟩)
  cases insts.symm.trans error

/-- Settles O57: the instance's error is among those of its evaluation, so of the cycle, and is reported. -/
theorem failedCycleReportsEachInstance : Obligations.FailedCycleReportsEachInstance := by
  refine ⟨fun s row d vs e reported hd inputs refused => ?_, fun n e x es es' own => Machine.raisedErrors_address own⟩
  have failed : Machine.instanceOp s row d = .error [.step d.name e] := by
    rw [Machine.instanceOp, inputs, Machine.evaluation, Machine.collect_map_ok]
    simp only [refused]
  refine ⟨failed, fun cycle_failed => ?_⟩
  obtain ⟨es, evaluated, rfl⟩ := Machine.runCycle_failed cycle_failed
  obtain ⟨es', insts, among⟩ := Machine.collect_error_of_mem (List.mem_map.mpr ⟨d, hd, failed⟩)
  exact Machine.mem_raisedErrors_of_step
    (Machine.evaluateCycle_error_of_insts evaluated insts (among (List.mem_singleton_self _)))

end Sys2Proof
end

section
/-! PROOFS. Two registers in a chain (42_sequential.md section 3; program P4 of 95_test_vectors.md). -/

namespace Sys2Proof.Machine

/-- Inputs that are an operation's port values evaluate to that operation. -/
theorem evaluation_encode (own : PortError → EvalError) (i : Instr) :
    evaluation own i.comp i.inst (i.ports.map .ok) = .ok i := by
  have decoded : decode ⟨i.comp, i.inst, i.ports⟩ = .ok i := decodeEncode i
  rw [evaluation, collect_map_ok]
  simp only [decoded]

/-- A REGISTER drives what it held before the edge (R153). -/
theorem preEdge_register (n : Ident) (s : State) :
    preEdge .register n [] s = .ok [(.out, Bus.raw (s.peekRegister n))] := by
  have held : evaluation (.address n) .register n
      (Comp.register.inputs.map fun i => .ok (if i.1 = .address then [] else List.replicate i.2 0)) =
      .ok (.register n (0#16) false) := rfl
  rw [preEdge, held, outputsOf, exec_register]
  rfl

/-- The wiring of P4: register 0 takes the input 2, register 1 takes register 0's output, and both load always. -/
def chain : System :=
  { insts := [⟨0, .register⟩, ⟨1, .register⟩], nets := [], inputs := [2],
    drives := [⟨0, [(.inp, .name 2), (.load, .lit [true])]⟩, ⟨1, [(.inp, .port 0 .out), (.load, .lit [true])]⟩] }

section
variable {s : State} (wired : s.system = chain) (v : Bus16)
include wired

/-- In a cycle of the chain, register 0 loads the row's word and register 1 the word register 0 held before the edge. -/
theorem evaluateCycle_chain :
    evaluateCycle s ⟨0, [(2, Bus.raw v)]⟩ = .ok ([.register 0 v true, .register 1 (s.peekRegister 0) true], []) := by
  have inputs₀ : instanceInputs s ⟨0, [(2, Bus.raw v)]⟩ ⟨0, .register⟩ = (Instr.register 0 v true).ports.map .ok := by
    simp only [instanceInputs, evalOne, wired]
    rfl
  have inputs₁ : instanceInputs s ⟨0, [(2, Bus.raw v)]⟩ ⟨1, .register⟩ =
      (Instr.register 1 (s.peekRegister 0) true).ports.map .ok := by
    have size : s.system.size = 3 + 1 := by rw [wired]; rfl
    have comp : s.system.comp? 0 = some .register := by rw [wired]; rfl
    have data : s.system.driver? 1 .inp = some (.port 0 .out) := by rw [wired]; rfl
    have control : s.system.driver? 1 .load = some (.lit [true]) := by rw [wired]; rfl
    have upstream : evalOne s ⟨0, [(2, Bus.raw v)]⟩ (.port 0 .out) = .ok (Bus.raw (s.peekRegister 0)) := by
      rw [evalOne, size, evalPorts, comp]
      simp only [Comp.ramSize?, preEdge_register]
      rfl
    have loads : evalOne s ⟨0, [(2, Bus.raw v)]⟩ (.lit [true]) = .ok [1] := by
      rw [evalOne, size]
      rfl
    simp only [instanceInputs, Comp.inputs, List.map_cons, List.map_nil, data, control, upstream, loads]
    rfl
  have op₀ : instanceOp s ⟨0, [(2, Bus.raw v)]⟩ ⟨0, .register⟩ = .ok (.register 0 v true) := by
    rw [instanceOp, inputs₀]
    exact evaluation_encode (.step 0) (.register 0 v true)
  have op₁ : instanceOp s ⟨0, [(2, Bus.raw v)]⟩ ⟨1, .register⟩ = .ok (.register 1 (s.peekRegister 0) true) := by
    rw [instanceOp, inputs₁]
    exact evaluation_encode (.step 1) (.register 1 (s.peekRegister 0) true)
  rw [evaluateCycle, wired]
  simp only [chain, List.map_cons, List.map_nil, op₀, op₁]
  rfl

end
end Sys2Proof.Machine

namespace Sys2Proof

/-- Settles O54: both operations are run from the values before the edge. -/
theorem shiftRegisterCycle : Obligations.ShiftRegisterCycle := by
  intro s v wired
  have values := Machine.evaluateCycle_chain wired v
  have passes : s.system.check = .ok () := by rw [wired]; rfl
  have fits : s.system.checkRow ⟨0, [(2, Bus.raw v)]⟩ = .ok () := by rw [wired]; rfl
  simp only [Machine.runCycle, passes, fits, values, Machine.runAll, Machine.exec_register]
  refine ⟨_, rfl, ?_, ?_, ?_⟩
  · simp [Machine.State.peekRegister]
  · simp [Machine.State.peekRegister]
  · simp

end Sys2Proof
end

section
/-! PROOFS. Combinational loops (70_reset_and_hazards.md section 3, decision D16): a wiring with a loop of any kind
fails its check, and a wiring that its check refuses as a loop has one (R233). -/

namespace Sys2Proof

/-! ### A loop is found -/

/-- The expression needs, at once or through others, one that stands on a loop. -/
def ReachesLoop (sys : System) (e : Expr) : Prop :=
  ∃ e', Relation.ReflTransGen (DependsOn sys) e e' ∧ OnLoop sys e'

/-- What reaches a loop needs something that reaches it too, so the needs never end. -/
theorem ReachesLoop.next {sys : System} {e : Expr} (h : ReachesLoop sys e) :
    ∃ e', DependsOn sys e e' ∧ ReachesLoop sys e' := by
  obtain ⟨l, path, loop⟩ := h
  rcases path.cases_head with rfl | ⟨e', first, rest⟩
  · obtain ⟨e', first, back⟩ := Relation.TransGen.head'_iff.mp loop
    exact ⟨e', first, e, back, loop⟩
  · exact ⟨e', first, l, rest, loop⟩

/-- No fuel is enough to follow a loop. -/
theorem portsOf_ne_ok_of_reachesLoop {sys : System} {fuel : Nat} {e : Expr} (h : ReachesLoop sys e) (ps : List Port) :
    sys.portsOf fuel e ≠ .ok ps := by
  induction fuel generalizing e ps with
  | zero => simp [System.portsOf]
  | succ fuel ih =>
    intro found
    obtain ⟨e', needs, reaches⟩ := h.next
    obtain ⟨ps', found'⟩ := System.portsOf_ok found needs
    exact ih reaches ps' found'

/-- A list with an entry under a key has a first one, and it is under that key. -/
theorem exists_find?_of_mem_map {α β : Type} [DecidableEq β] {key : α → β} {l : List α} {k : β} (h : k ∈ l.map key) :
    ∃ a, l.find? (fun a => key a == k) = some a ∧ key a = k := by
  obtain ⟨b, hb, under⟩ := List.mem_map.mp h
  have some_entry : (l.find? fun a => key a == k).isSome := List.find?_isSome.mpr ⟨b, hb, beq_iff_eq.mpr under⟩
  obtain ⟨a, first⟩ := Option.isSome_iff_exists.mp some_entry
  exact ⟨a, first, beq_iff_eq.mp (List.find?_some first :)⟩

/-- Everything the check of a `drive` line gives: its instance is declared, every input port of it is driven, and every
expression of the line has one output. -/
theorem System.checkDrive_ok {sys : System} {d : DriveDecl} {u : Unit} (h : sys.checkDrive d = .ok u) :
    ∃ c, sys.comp? d.name = some c ∧ (∀ i ∈ c.inputs, ∃ e, d.expr? i.1 = some e) ∧
      ∀ x ∈ d.ports, ∃ p, sys.portsOf sys.size x.2 = .ok [p] := by
  unfold System.checkDrive at h
  split at h
  case h_1 => cases h
  case h_2 c declared =>
    split at h
    case h_1 => cases h
    case h_2 =>
      split at h
      case h_1 => cases h
      case h_2 none_undriven =>
        split at h
        case h_2 => cases h
        case h_1 found =>
          refine ⟨c, declared, fun i hi => ?_, fun x hx => ?_⟩
          · have driven : i.1 ∈ d.ports.map Prod.fst := by
              simpa using List.find?_eq_none.mp none_undriven i hi
            obtain ⟨y, first, -⟩ := exists_find?_of_mem_map driven
            exact ⟨y.2, by rw [DriveDecl.expr?, first, Option.map_some]⟩
          · obtain ⟨u, one⟩ := firstError_ok _ found x hx
            exact needOne_ok one

/-- A net that passes its check has outputs. -/
theorem System.checkNet_ok {sys : System} {d : NetDecl} {u : Unit} (h : sys.checkNet d = .ok u) :
    ∃ ps, sys.portsOf sys.size d.expr = .ok ps := by
  unfold System.checkNet at h
  split at h
  case h_1 ps found => exact ⟨ps, found⟩
  case h_2 => cases h

theorem System.mem_exprs {sys : System} {e : Expr} :
    e ∈ sys.exprs ↔ (∃ d ∈ sys.nets, d.expr = e) ∨ ∃ d ∈ sys.drives, ∃ x ∈ d.ports, x.2 = e := by
  simp [System.exprs]

/-- Every expression of a well-formed wiring has outputs. -/
theorem System.Checked.portsOf_exprs {sys : System} (h : sys.Checked) {e : Expr} (he : e ∈ sys.exprs) :
    ∃ ps, sys.portsOf sys.size e = .ok ps := by
  obtain ⟨d, hd, rfl⟩ | ⟨d, hd, x, hx, rfl⟩ := System.mem_exprs.mp he
  · obtain ⟨u, passed⟩ := h.nets d hd
    exact System.checkNet_ok passed
  · obtain ⟨u, passed⟩ := h.drives d hd
    obtain ⟨c, -, -, one⟩ := System.checkDrive_ok passed
    obtain ⟨p, found⟩ := one x hx
    exact ⟨[p], found⟩

/-! ### A loop found is one -/

/-- The check of an instance follows no expression. -/
theorem System.checkInst_ne_loop {sys : System} (d : InstDecl) : sys.checkInst d ≠ .error .combinationalLoop := by
  unfold System.checkInst
  split
  case isTrue => simp
  case isFalse => split <;> simp

/-- The check of a `drive` line refuses as a loop only if it follows one of the line's expressions too far. -/
theorem System.checkDrive_loop {sys : System} {d : DriveDecl} (h : sys.checkDrive d = .error .combinationalLoop) :
    ∃ x ∈ d.ports, sys.portsOf sys.size x.2 = .error .combinationalLoop := by
  unfold System.checkDrive at h
  split at h
  case h_1 => cases h
  case h_2 =>
    split at h
    case h_1 => cases h
    case h_2 =>
      split at h
      case h_1 => cases h
      case h_2 =>
        split at h
        case h_1 => cases h
        case h_2 failed =>
          cases h
          obtain ⟨x, hx, loop⟩ := firstError_error _ failed
          exact ⟨x, hx, needOne_loop loop⟩

/-- The check of a net refuses as a loop only if it follows the net's expression too far. -/
theorem System.checkNet_loop {sys : System} {d : NetDecl} (h : sys.checkNet d = .error .combinationalLoop) :
    sys.portsOf sys.size d.expr = .error .combinationalLoop := by
  unfold System.checkNet at h
  split at h
  case h_1 => cases h
  case h_2 loop => cases h; exact loop

/-- The check refuses as a loop only if it follows some expression of the wiring too far. -/
theorem System.check_loop {sys : System} (h : sys.check = .error .combinationalLoop) :
    ∃ e ∈ sys.exprs, sys.portsOf sys.size e = .error .combinationalLoop := by
  unfold System.check at h
  split at h
  case h_1 => cases h
  split at h
  case h_1 => cases h
  split at h
  case h_1 failed =>
    cases h
    obtain ⟨d, -, refused⟩ := firstError_error _ failed
    exact absurd refused (System.checkInst_ne_loop d)
  split at h
  case h_1 failed =>
    cases h
    obtain ⟨d, hd, refused⟩ := firstError_error _ failed
    obtain ⟨x, hx, loop⟩ := System.checkDrive_loop refused
    exact ⟨x.2, System.mem_exprs.mpr (.inr ⟨d, hd, x, hx, rfl⟩), loop⟩
  split at h
  case h_1 failed =>
    cases h
    obtain ⟨d, hd, refused⟩ := firstError_error _ failed
    exact ⟨d.expr, System.mem_exprs.mpr (.inl ⟨d, hd, rfl⟩), System.checkNet_loop refused⟩
  case h_2 => cases h

mutual
/-- The expression and its parts, each once for each place where it stands. -/
def Expr.nodes : Expr → List Expr
  | .lit v => [.lit v]
  | .name n => [.name n]
  | .port n p => [.port n p]
  | .op c args => .op c args :: args.nodes
  | .alu l x y => .alu l x y :: (x.nodes ++ y.nodes)
  | .slice e p q => .slice e p q :: e.nodes
/-- The expressions of a list and their parts. -/
def Exprs.nodes : Exprs → List Expr
  | .nil => []
  | .cons e es => e.nodes ++ es.nodes
end

mutual
theorem Expr.nodes_length : ∀ e : Expr, e.nodes.length = e.size
  | .lit _ | .name _ | .port _ _ => rfl
  | .op _ args => by simp [Expr.nodes, Expr.size, args.nodes_length]
  | .alu _ x y => by simp [Expr.nodes, Expr.size, x.nodes_length, y.nodes_length]
  | .slice e _ _ => by simp [Expr.nodes, Expr.size, e.nodes_length]
theorem Exprs.nodes_length : ∀ es : Exprs, es.nodes.length = es.size
  | .nil => rfl
  | .cons e es => by simp [Exprs.nodes, Exprs.size, e.nodes_length, es.nodes_length]
end

theorem Expr.self_mem_nodes (e : Expr) : e ∈ e.nodes := by
  cases e <;> simp [Expr.nodes]

mutual
/-- A part of a part is a part. -/
theorem Expr.nodes_subset : ∀ (e : Expr) {x : Expr}, x ∈ e.nodes → x.nodes ⊆ e.nodes
  | .lit _, x, h | .name _, x, h | .port _ _, x, h => by
    simp only [Expr.nodes, List.mem_singleton] at h
    subst h
    exact List.Subset.refl _
  | .op c args, x, h => by
    rcases List.mem_cons.mp h with rfl | h
    · exact List.Subset.refl _
    · exact List.subset_cons_of_subset _ (args.nodes_subset h)
  | .alu l a b, x, h => by
    rcases List.mem_cons.mp h with rfl | h
    · exact List.Subset.refl _
    · refine List.subset_cons_of_subset _ ?_
      rcases List.mem_append.mp h with h | h
      · exact List.Subset.trans (a.nodes_subset h) (List.subset_append_left ..)
      · exact List.Subset.trans (b.nodes_subset h) (List.subset_append_right ..)
  | .slice e p q, x, h => by
    rcases List.mem_cons.mp h with rfl | h
    · exact List.Subset.refl _
    · exact List.subset_cons_of_subset _ (e.nodes_subset h)
theorem Exprs.nodes_subset : ∀ (es : Exprs) {x : Expr}, x ∈ es.nodes → x.nodes ⊆ es.nodes
  | .nil, x, h => nomatch h
  | .cons e es, x, h => by
    rcases List.mem_append.mp h with h | h
    · exact List.Subset.trans (e.nodes_subset h) (List.subset_append_left ..)
    · exact List.Subset.trans (es.nodes_subset h) (List.subset_append_right ..)
end

theorem Exprs.nodes_subset_of_mem {e : Expr} : ∀ {args : Exprs}, e ∈ args.toList → e.nodes ⊆ args.nodes
  | .cons a args, h => by
    rcases List.mem_cons.mp h with rfl | h
    · exact List.subset_append_left ..
    · exact List.Subset.trans (Exprs.nodes_subset_of_mem h) (List.subset_append_right ..)

/-- The expressions of a wiring and their parts. -/
def System.nodes (sys : System) : List Expr := sys.exprs.flatMap Expr.nodes

theorem System.nodes_length (sys : System) : sys.nodes.length = sys.size := by
  simp only [System.nodes, System.size, List.length_flatMap, Expr.nodes_length]

theorem System.mem_nodes_of_mem_exprs {sys : System} {e : Expr} (h : e ∈ sys.exprs) : e ∈ sys.nodes :=
  List.mem_flatMap.mpr ⟨e, h, e.self_mem_nodes⟩

/-- A part of an expression of a wiring is one of the wiring's parts. -/
theorem System.nodes_closed {sys : System} {x y : Expr} (hx : x ∈ sys.nodes) (hy : y ∈ x.nodes) : y ∈ sys.nodes := by
  obtain ⟨e, he, hxe⟩ := List.mem_flatMap.mp hx
  exact List.mem_flatMap.mpr ⟨e, he, e.nodes_subset hxe hy⟩

theorem System.net?_mem_exprs {sys : System} {n : Ident} {e : Expr} (h : sys.net? n = some e) : e ∈ sys.exprs := by
  obtain ⟨d, found, rfl⟩ := Option.map_eq_some_iff.mp h
  exact System.mem_exprs.mpr (.inl ⟨d, List.mem_of_find?_eq_some found, rfl⟩)

theorem System.driver?_mem_exprs {sys : System} {n : Ident} {p : Port} {e : Expr} (h : sys.driver? n p = some e) :
    e ∈ sys.exprs := by
  unfold System.driver? at h
  split at h
  case h_2 => cases h
  case h_1 d line =>
    obtain ⟨x, found, rfl⟩ := Option.map_eq_some_iff.mp h
    exact System.mem_exprs.mpr
      (.inr ⟨d, List.mem_of_find?_eq_some line, x, List.mem_of_find?_eq_some found, rfl⟩)

/-- What a part of a wiring needs is a part of the wiring. -/
theorem DependsOn.mem_nodes {sys : System} {x y : Expr} (h : DependsOn sys x y) (hx : x ∈ sys.nodes) :
    y ∈ sys.nodes := by
  cases h with
  | net _ found => exact System.mem_nodes_of_mem_exprs (System.net?_mem_exprs found)
  | netPort _ found => exact System.mem_nodes_of_mem_exprs (System.net?_mem_exprs found)
  | address _ _ driven => exact System.mem_nodes_of_mem_exprs (System.driver?_mem_exprs driven)
  | operand arg =>
    exact System.nodes_closed hx (List.mem_cons_of_mem _ (Exprs.nodes_subset_of_mem arg y.self_mem_nodes))
  | aluX => exact System.nodes_closed hx (List.mem_cons_of_mem _ (List.mem_append_left _ y.self_mem_nodes))
  | aluY => exact System.nodes_closed hx (List.mem_cons_of_mem _ (List.mem_append_right _ y.self_mem_nodes))
  | whole => exact System.nodes_closed hx (List.mem_cons_of_mem _ y.self_mem_nodes)

/-- An expression followed too far begins a chain of needs as long as the fuel. -/
theorem System.chain_of_portsOf_loop {sys : System} {fuel : Nat} {e : Expr}
    (h : sys.portsOf fuel e = .error .combinationalLoop) :
    ∃ f : Nat → Expr, f 0 = e ∧ ∀ k < fuel, DependsOn sys (f k) (f (k + 1)) := by
  induction fuel generalizing e with
  | zero => exact ⟨fun _ => e, rfl, by simp⟩
  | succ fuel ih =>
    obtain ⟨e', needs, loop⟩ := System.portsOf_loop h
    obtain ⟨f, rfl, chain⟩ := ih loop
    refine ⟨fun k => k.casesOn e f, rfl, fun k hk => ?_⟩
    cases k with
    | zero => exact needs
    | succ k => exact chain k (Nat.lt_of_succ_lt_succ hk)

/-- A chain of needs longer than the wiring has parts passes some part twice. -/
theorem System.exists_repeat_of_chain {sys : System} {f : Nat → Expr} (start : f 0 ∈ sys.exprs)
    (chain : ∀ k < sys.size, DependsOn sys (f k) (f (k + 1))) :
    ∃ i j, i < j ∧ j ≤ sys.size ∧ f i = f j := by
  have parts (k : Nat) (hk : k ≤ sys.size) : f k ∈ sys.nodes := by
    induction k with
    | zero => exact System.mem_nodes_of_mem_exprs start
    | succ k ih => exact (chain k hk).mem_nodes (ih (Nat.le_of_succ_le hk))
  have few : sys.nodes.toFinset.card < (Finset.range (sys.size + 1)).card := by
    rw [Finset.card_range, Nat.lt_succ_iff, ← System.nodes_length]
    exact List.toFinset_card_le _
  obtain ⟨i, hi, j, hj, differ, same⟩ := Finset.exists_ne_map_eq_of_card_lt_of_maps_to few
    (f := f) fun k hk => List.mem_toFinset.mpr (parts k (Nat.lt_succ_iff.mp (Finset.mem_range.mp hk)))
  rw [Finset.mem_range, Nat.lt_succ_iff] at hi hj
  rcases Nat.lt_or_gt_of_ne differ with before | after
  · exact ⟨i, j, before, hj, same⟩
  · exact ⟨j, i, after, hi, same.symm⟩

/-! ### The obligations -/

/-- Settles O52: a well-formed wiring's expressions have outputs, and one that reaches a loop has none. -/
theorem dependencyLoopRefused : Obligations.DependencyLoopRefused := by
  rintro sys ⟨e, he, reaches⟩
  refine Bool.eq_false_iff.mpr fun wired => ?_
  obtain ⟨ps, found⟩ := (System.checked wired).portsOf_exprs he
  exact portsOf_ne_ok_of_reachesLoop reaches ps found

/-- Settles O55: the chain followed repeats a part, and from it leads back to it. -/
theorem loopRefusalHasLoop : Obligations.LoopRefusalHasLoop := by
  intro sys refused
  obtain ⟨e, he, loop⟩ := System.check_loop refused
  obtain ⟨f, rfl, chain⟩ := System.chain_of_portsOf_loop loop
  obtain ⟨i, j, before, inside, same⟩ := System.exists_repeat_of_chain he chain
  have path : Relation.ReflTransGen (DependsOn sys) (f 0) (f i) :=
    (reflTransGen_of_succ_of_le (fun a b => DependsOn sys (f a) (f b))
      (fun k hk => chain k (by have := hk.2; omega)) (Nat.zero_le i)).lift f fun _ _ needs => needs
  have back : Relation.TransGen (DependsOn sys) (f i) (f j) :=
    (transGen_of_succ_of_lt (fun a b => DependsOn sys (f a) (f b))
      (fun k hk => chain k (by have := hk.2; omega)) before).lift f fun _ _ needs => needs
  exact ⟨f 0, he, f i, path, same ▸ back⟩

end Sys2Proof
end

section
/-! PROOFS. A cycle of a well-formed wiring (30_encoding.md section 5, 70_reset_and_hazards.md section 3): what the
static check finds, every evaluation of the cycle bears out, so that a cycle stops only for errors its components raise (R202)
and for a sub-bus out of range (R75). -/

namespace Sys2Proof

/-! ### What the check of a wiring and of a row gives -/

theorem Comp.outputs_of_stateful {c : Comp} (h : c.stateful = true) : c.outputs = [.out] := by
  cases c
  case latch | bit | register | ram8 | ram64 | ram512 | ram4k | ram16k | pc => rfl
  all_goals nomatch h

/-- A well-formed wiring's instances are stateful. -/
theorem System.Checked.stateful_of_comp? {sys : System} (h : sys.Checked) {n : Ident} {c : Comp}
    (declared : sys.comp? n = some c) : c.stateful = true := by
  obtain ⟨d, found, rfl⟩ := Option.map_eq_some_iff.mp declared
  obtain ⟨u, passed⟩ := h.insts d (List.mem_of_find?_eq_some found)
  exact (System.checkInst_ok passed).1

/-- A declared name stands for the component it is declared with, since no name is declared twice. -/
theorem System.Checked.comp?_eq {sys : System} (h : sys.Checked) {d : InstDecl} (hd : d ∈ sys.insts) :
    sys.comp? d.name = some d.comp := by
  obtain ⟨d', first, name⟩ := exists_find?_of_mem_map (List.mem_map_of_mem (f := InstDecl.name) hd)
  have same : d' = d := List.inj_on_of_nodup_map h.inst_names_nodup (List.mem_of_find?_eq_some first) hd name
  rw [System.comp?, first, same, Option.map_some]

/-- Every input port of an instance of a well-formed wiring is driven, by an expression with one output. -/
theorem System.Checked.driver {sys : System} (h : sys.Checked) {d : InstDecl} (hd : d ∈ sys.insts)
    {i : Port × Nat} (hi : i ∈ d.comp.inputs) :
    ∃ e p, sys.driver? d.name i.1 = some e ∧ sys.portsOf sys.size e = .ok [p] := by
  obtain ⟨u, passed⟩ := h.insts d hd
  obtain ⟨-, line, driven⟩ := System.checkInst_ok passed
  have named : line.name = d.name := beq_iff_eq.mp (List.find?_some driven :)
  obtain ⟨u', line_passed⟩ := h.drives line (List.mem_of_find?_eq_some driven)
  obtain ⟨c, declared, inputs, one⟩ := System.checkDrive_ok line_passed
  obtain rfl : d.comp = c := Option.some.inj ((h.comp?_eq hd).symm.trans (named ▸ declared))
  obtain ⟨e, given⟩ := inputs i hi
  obtain ⟨x, first, rfl⟩ := Option.map_eq_some_iff.mp given
  obtain ⟨p, found⟩ := one x (List.mem_of_find?_eq_some first)
  exact ⟨x.2, p, by rw [System.driver?, driven]; exact given, found⟩

/-- A row that fits has a value for every declared input. -/
theorem rowValue?_of_input {sys : System} {row : Row} {u : Unit} (fits : sys.checkRow row = .ok u) {n : Ident}
    (input : sys.inputs.contains n = true) : ∃ v, Machine.rowValue? row n = some v := by
  unfold System.checkRow at fits
  split at fits
  case h_1 => cases fits
  case h_2 none_missing =>
    have supplied : n ∈ row.values.map Prod.fst := by
      simpa using List.find?_eq_none.mp none_missing n (List.contains_iff_mem.mp input)
    obtain ⟨v, first, -⟩ := exists_find?_of_mem_map supplied
    exact ⟨v.2, by rw [Machine.rowValue?, first, Option.map_some]⟩

/-- A row that fits has a value for no other name. -/
theorem rowValue?_of_not_input {sys : System} {row : Row} {u : Unit} (fits : sys.checkRow row = .ok u) {n : Ident}
    (other : sys.inputs.contains n = false) : Machine.rowValue? row n = none := by
  unfold System.checkRow at fits
  split at fits
  case h_1 => cases fits
  case h_2 =>
    split at fits
    case h_1 => cases fits
    case h_2 none_unexpected =>
      rw [Machine.rowValue?, Option.map_eq_none_iff, List.find?_eq_none]
      intro v hv name
      have expected := List.find?_eq_none.mp none_unexpected v hv
      obtain rfl : v.1 = n := beq_iff_eq.mp name
      rw [other] at expected
      exact expected rfl

end Sys2Proof

namespace Sys2Proof.Machine

/-! ### Evaluations with a meaning -/

/-- An error that a cycle of a well-formed wiring can meet: one of a component, or a sub-bus out of range. -/
def EvalError.Allowed : EvalError → Prop
  | .gate _ | .step _ _ | .address _ _ => True
  | .script e => ∃ q w, e = .sliceOutOfRange q w

/-- The evaluation gives a value with this property, or at least one error, each of which is allowed. -/
def HasMeaning {α : Type} (P : α → Prop) : Except (List EvalError) α → Prop
  | .ok a => P a
  | .error es => es ≠ [] ∧ ∀ e ∈ es, e.Allowed

/-- The evaluation gives a value, or at least one error, each of which is allowed. -/
abbrev Means {α : Type} (r : Except (List EvalError) α) : Prop := HasMeaning (fun _ => True) r

/-- The evaluation gives values on these ports, or at least one error, each of which is allowed. -/
abbrev GivesPorts (ps : List Port) (r : Except (List EvalError) PortValues) : Prop :=
  HasMeaning (fun vs => vs.map Prod.fst = ps) r

theorem hasMeaning_single {α : Type} {P : α → Prop} {e : EvalError} (h : e.Allowed) :
    HasMeaning P (.error [e]) := by
  simpa [HasMeaning] using h

theorem hasMeaning_append {α : Type} {P : α → Prop} {es es' : List EvalError}
    (h : es ≠ [] ∧ ∀ e ∈ es, e.Allowed) (h' : ∀ e ∈ es', e.Allowed) :
    HasMeaning P (.error (es ++ es')) :=
  ⟨List.append_ne_nil_of_left_ne_nil h.1 _, fun e he => (List.mem_append.mp he).elim (h.2 e) (h' e)⟩

theorem means_collect {α : Type} {l : List (Except (List EvalError) α)} (h : ∀ r ∈ l, Means r) : Means (collect l) := by
  induction l with
  | nil => trivial
  | cons r l ih =>
    have head := h r (List.mem_cons_self ..)
    have tail := ih fun r hr => h r (List.mem_cons_of_mem _ hr)
    cases r with
    | ok a =>
      cases collected : collect l with
      | ok as => simp only [collect, collected]; trivial
      | error es => rw [collected] at tail; simpa only [collect, collected] using tail
    | error es =>
      cases collected : collect l with
      | ok as => simp only [collect, collected]; exact head
      | error es' =>
        rw [collected] at tail
        simp only [collect, collected]
        exact hasMeaning_append head tail.2

theorem means_oneValue {p : Port} {r : Except (List EvalError) PortValues} (h : GivesPorts [p] r) :
    Means (oneValue r) := by
  match r, h with
  | .error es, h => exact h
  | .ok [v], _ => trivial

theorem givesPorts_selectPort {n : Ident} {p : Port} {ps : List Port} {r : Except (List EvalError) PortValues}
    (hp : p ∈ ps) (h : GivesPorts ps r) : GivesPorts [p] (selectPort n p r) := by
  cases r with
  | error es => exact h
  | ok vs =>
    obtain rfl : vs.map Prod.fst = ps := h
    obtain ⟨v, first, port⟩ := exists_find?_of_mem_map hp
    simp only [selectPort, first]
    exact congrArg List.singleton port

theorem givesPorts_sliceValue {p q : Nat} {r : Except (List EvalError) RawBus} (ordered : ¬q < p) (h : Means r) :
    GivesPorts [.out] (sliceValue p q r) := by
  cases r with
  | error es => exact h
  | ok v =>
    rw [sliceValue, if_neg ordered]
    split
    · exact hasMeaning_single ⟨_, _, rfl⟩
    · rfl

theorem hasMeaning_evaluation {own : PortError → EvalError} (component : ∀ e, (own e).Allowed) {c : Comp} {n : Ident}
    {ins : List (Except (List EvalError) RawBus)} (h : ∀ r ∈ ins, Means r) :
    HasMeaning (fun i => i.comp = c) (evaluation own c n ins) := by
  have given := means_collect h
  unfold evaluation
  cases collected : collect ins with
  | ok vs =>
    cases decoded : decode ⟨c, n, vs⟩ with
    | error e => simp only [decoded]; exact hasMeaning_single (component e)
    | ok i => simp only [decoded]; exact (encodeDecode _ i decoded).1
  | error es =>
    rw [collected] at given
    dsimp only
    split
    · exact hasMeaning_append given (by simpa using component _)
    · exact given

/-- An operation returns a value on each output port of its component, in order (R61). -/
theorem outputs_ports {i : Instr} {s t : State} (h : exec i s = .next t) :
    t.outputs.map Output.port = i.comp.outputs := by
  cases i <;> cases h <;> rfl

theorem givesPorts_outputsOf {c : Comp} {s : State} {r : Except (List EvalError) Instr}
    (h : HasMeaning (fun i => i.comp = c) r) : GivesPorts c.outputs (outputsOf r s) := by
  cases r with
  | error es => exact h
  | ok i =>
    obtain rfl : i.comp = c := h
    obtain ⟨t, completes⟩ := everyOperationCompletes i s
    rw [outputsOf, completes]
    exact List.map_map.trans (outputs_ports completes)

theorem givesPorts_preEdge (c : Comp) (n : Ident) (address : RawBus) (s : State) :
    GivesPorts c.outputs (preEdge c n address s) := by
  refine givesPorts_outputsOf (hasMeaning_evaluation (own := .address n) (fun _ => trivial) fun r hr => ?_)
  obtain ⟨i, -, rfl⟩ := List.mem_map.mp hr
  trivial

/-! ### What a port's name evaluates to -/

section
variable {s : State} {row : Row} {fuel : Nat} {n : Ident} {p : Port} {c : Comp} {z : RamSize} {e : Expr}

/-- An instance that is no memory block drives its output before the edge. -/
theorem evalPorts_cell (declared : s.system.comp? n = some c) (no_ram : c.ramSize? = none) :
    evalPorts s row (fuel + 1) (.port n p) = selectPort n p (preEdge c n [] s) := by
  simp only [evalPorts, declared, no_ram]

/-- A memory block drives the word its address indexes. -/
theorem evalPorts_ram {address : RawBus} (declared : s.system.comp? n = some c) (ram : c.ramSize? = some z)
    (driven : s.system.driver? n .address = some e) (value : oneValue (evalPorts s row fuel e) = .ok address) :
    evalPorts s row (fuel + 1) (.port n p) = selectPort n p (preEdge c n address s) := by
  simp only [evalPorts, declared, ram, driven, value]

/-- A memory block whose address has no value drives none, for the same errors. -/
theorem evalPorts_ram_error {es : List EvalError} (declared : s.system.comp? n = some c) (ram : c.ramSize? = some z)
    (driven : s.system.driver? n .address = some e) (failed : oneValue (evalPorts s row fuel e) = .error es) :
    evalPorts s row (fuel + 1) (.port n p) = .error es := by
  simp only [evalPorts, declared, ram, driven, failed]

/-- A net's port is that output of its expression. -/
theorem evalPorts_netPort (undeclared : s.system.comp? n = none) (net : s.system.net? n = some e) :
    evalPorts s row (fuel + 1) (.port n p) = selectPort n p (evalPorts s row fuel e) := by
  simp only [evalPorts, undeclared, net]

end

/-! ### The evaluation of each kind of expression bears out its check -/

section
variable {s : State} {row : Row} {u : Unit} {fuel : Nat} {ps : List Port}

/-- With one unit of fuel less, what the check finds of an expression its evaluation bears out: the same output ports,
or allowed errors. -/
def BearsOut (s : State) (row : Row) (fuel : Nat) : Prop :=
  ∀ {e : Expr} {ps : List Port}, s.system.portsOf fuel e = .ok ps → GivesPorts ps (evalPorts s row fuel e)

variable (ih : BearsOut s row fuel)
include ih

/-- An expression of which one value is needed. -/
theorem means_of_needOne {e : Expr} {u : Unit} (one : needOne (s.system.portsOf fuel e) = .ok u) :
    Means (oneValue (evalPorts s row fuel e)) :=
  let ⟨_, found⟩ := needOne_ok one
  means_oneValue (ih found)

/-- An input has its value in the row, and any other name stands for a net. -/
theorem givesPorts_name (fits : s.system.checkRow row = .ok u) {n : Ident}
    (found : s.system.portsOf (fuel + 1) (.name n) = .ok ps) :
    GivesPorts ps (evalPorts s row (fuel + 1) (.name n)) := by
  simp only [System.portsOf] at found
  simp only [evalPorts]
  split at found
  case isTrue input =>
    obtain ⟨v, value⟩ := rowValue?_of_input fits input
    cases found
    simp only [value]
    rfl
  case isFalse other =>
    simp only [rowValue?_of_not_input fits (Bool.eq_false_iff.mpr other)]
    cases net : s.system.net? n with
    | none => rw [net] at found; cases found
    | some e => rw [net] at found; exact ih found

/-- An instance drives its one output, a memory block once its address has a value, and a net drives its own. -/
theorem givesPorts_port (wired : s.system.Checked) {n : Ident} {p : Port}
    (found : s.system.portsOf (fuel + 1) (.port n p) = .ok ps) :
    GivesPorts ps (evalPorts s row (fuel + 1) (.port n p)) := by
  simp only [System.portsOf] at found
  cases declared : s.system.comp? n with
  | some c =>
    have outputs := Comp.outputs_of_stateful (wired.stateful_of_comp? declared)
    have drives (address : RawBus) : GivesPorts [.out] (selectPort n .out (preEdge c n address s)) :=
      givesPorts_selectPort (outputs ▸ List.mem_singleton_self _) (givesPorts_preEdge c n address s)
    simp only [declared] at found
    split at found
    case isTrue => cases found
    case isFalse only_out =>
      obtain rfl := not_not.mp only_out
      split at found
      case h_1 no_ram =>
        cases found
        rw [evalPorts_cell declared no_ram]
        exact drives []
      case h_2 z ram =>
        split at found
        case h_1 => cases found
        case h_2 e driven =>
          split at found
          case h_2 => cases found
          case h_1 one =>
            cases found
            have address := means_of_needOne ih one
            cases value : oneValue (evalPorts s row fuel e) with
            | error es =>
              rw [value] at address
              rw [evalPorts_ram_error declared ram driven value]
              exact address
            | ok address =>
              rw [evalPorts_ram declared ram driven value]
              exact drives address
  | none =>
    simp only [declared] at found
    split at found
    case h_1 => cases found
    case h_2 e net =>
      split at found
      case h_1 => cases found
      case h_2 found' =>
        split at found
        case isFalse => cases found
        case isTrue has =>
          cases found
          rw [evalPorts_netPort declared net]
          exact givesPorts_selectPort (List.contains_iff_mem.mp has) (ih found')

/-- An operator drives the outputs of its component, on operands that have one value each. -/
theorem givesPorts_op {c : Comp} {args : Exprs} (found : s.system.portsOf (fuel + 1) (.op c args) = .ok ps) :
    GivesPorts ps (evalPorts s row (fuel + 1) (.op c args)) := by
  simp only [System.portsOf] at found
  simp only [evalPorts]
  split at found
  case isTrue => cases found
  case isFalse combinational =>
    split at found
    case isTrue => cases found
    case isFalse =>
      split at found
      case h_2 => cases found
      case h_1 all =>
        cases found
        rw [if_neg combinational]
        refine givesPorts_outputsOf (hasMeaning_evaluation (own := .gate) (fun _ => trivial) fun r hr => ?_)
        obtain ⟨a, ha, rfl⟩ := List.mem_map.mp hr
        obtain ⟨u, one⟩ := firstError_ok _ all a ha
        exact means_of_needOne ih one

/-- The ALU under a label drives its result, on operands that have one value each. -/
theorem givesPorts_alu {l : AluLabel} {x y : Expr} (found : s.system.portsOf (fuel + 1) (.alu l x y) = .ok ps) :
    GivesPorts ps (evalPorts s row (fuel + 1) (.alu l x y)) := by
  simp only [System.portsOf] at found
  simp only [evalPorts]
  split at found
  case h_2 => cases found
  case h_3 => cases found
  case h_1 one_x one_y =>
    cases found
    refine givesPorts_selectPort (ps := Comp.outputs .alu) (List.mem_cons_self ..)
      (givesPorts_outputsOf (hasMeaning_evaluation (own := .gate) (fun _ => trivial) fun r hr => ?_))
    rcases List.mem_cons.mp hr with rfl | hr
    · exact means_of_needOne ih one_x
    · rcases List.mem_cons.mp hr with rfl | hr
      · exact means_of_needOne ih one_y
      · obtain ⟨b, -, rfl⟩ := List.mem_map.mp hr
        trivial

/-- A sub-bus drives its positions, where its bus has them. -/
theorem givesPorts_slice {e : Expr} {p q : Nat} (found : s.system.portsOf (fuel + 1) (.slice e p q) = .ok ps) :
    GivesPorts ps (evalPorts s row (fuel + 1) (.slice e p q)) := by
  simp only [System.portsOf] at found
  simp only [evalPorts]
  split at found
  case isTrue => cases found
  case isFalse ordered =>
    split at found
    case h_2 => cases found
    case h_1 one => cases found; exact givesPorts_sliceValue ordered (means_of_needOne ih one)

end

/-- What the check finds of any expression its evaluation bears out, by induction on the fuel both follow. -/
theorem evalPorts_bearsOut {s : State} {row : Row} {u : Unit} (wired : s.system.Checked)
    (fits : s.system.checkRow row = .ok u) (fuel : Nat) : BearsOut s row fuel := by
  induction fuel with
  | zero => intro e ps found; cases found
  | succ fuel ih =>
    intro e ps found
    cases e with
    | lit v => cases found; rfl
    | name n => exact givesPorts_name ih fits found
    | port n p => exact givesPorts_port ih wired found
    | op c args => exact givesPorts_op ih found
    | alu l x y => exact givesPorts_alu ih found
    | slice e p q => exact givesPorts_slice ih found

/-! ### The evaluations of a cycle, and the outcome -/

section
variable {s : State} {row : Row} {u : Unit} (wired : s.system.Checked) (fits : s.system.checkRow row = .ok u)
include wired fits

/-- Every instance's evaluation has a meaning: each of its inputs is driven by an expression with one output. -/
theorem means_instanceOp {d : InstDecl} (hd : d ∈ s.system.insts) : Means (instanceOp s row d) := by
  have inputs : ∀ r ∈ instanceInputs s row d, Means r := by
    intro r hr
    obtain ⟨i, hi, rfl⟩ := List.mem_map.mp hr
    obtain ⟨e, p, driven, found⟩ := wired.driver hd hi
    simp only [driven]
    exact means_oneValue (evalPorts_bearsOut wired fits _ found)
  have evaluated := hasMeaning_evaluation (own := .step d.name) (c := d.comp) (n := d.name) (fun _ => trivial) inputs
  cases value : instanceOp s row d with
  | ok i => trivial
  | error es => rw [← instanceOp, value] at evaluated; exact evaluated

/-- Every net's evaluation has a meaning. -/
theorem means_netOutputs {d : NetDecl} (hd : d ∈ s.system.nets) : Means (netOutputs s row d) := by
  obtain ⟨u, passed⟩ := wired.nets d hd
  obtain ⟨ps, found⟩ := System.checkNet_ok passed
  have value := evalPorts_bearsOut wired fits _ found
  unfold netOutputs
  split
  case h_1 es failed => rw [failed] at value; exact value
  case h_2 => trivial

/-- The evaluations of a cycle together have a meaning. -/
theorem means_evaluateCycle : Means (evaluateCycle s row) := by
  have insts : Means (collect (s.system.insts.map (instanceOp s row))) := means_collect fun r hr => by
    obtain ⟨d, hd, rfl⟩ := List.mem_map.mp hr
    exact means_instanceOp wired fits hd
  have nets : Means (collect (s.system.nets.map (netOutputs s row))) := means_collect fun r hr => by
    obtain ⟨d, hd, rfl⟩ := List.mem_map.mp hr
    exact means_netOutputs wired fits hd
  unfold evaluateCycle
  split
  case h_1 => trivial
  case h_2 e1 e2 failed failed' =>
    rw [failed] at insts
    rw [failed'] at nets
    exact hasMeaning_append insts nets.2
  case h_3 failed _ => rw [failed] at insts; exact insts
  case h_4 failed => rw [failed] at nets; exact nets

end

/-- Where no error is of the script, some component's error is reported. -/
theorem raisedErrors_ne_nil {es : List EvalError} (some_error : es ≠ []) (no_script : ∀ e, .script e ∉ es) :
    raisedErrors es ≠ [] := by
  obtain ⟨e, he⟩ := List.exists_mem_of_ne_nil es some_error
  cases e with
  | script e => exact absurd he (no_script e)
  | step n x => exact List.ne_nil_of_mem (mem_raisedErrors_of_step he)
  | gate x => exact List.ne_nil_of_mem (mem_distinct.mpr (List.mem_filterMap.mpr ⟨_, he, rfl⟩) : x ∈ raisedErrors es)
  | address n x =>
    cases own : es.any (stepRaised n) with
    | false =>
      exact List.ne_nil_of_mem
        (mem_distinct.mpr (List.mem_filterMap.mpr ⟨_, he, by simp [own]⟩) : x ∈ raisedErrors es)
    | true =>
      obtain ⟨e, he, raised⟩ := List.any_eq_true.mp own
      cases e with
      | step m y => exact List.ne_nil_of_mem (mem_raisedErrors_of_step he)
      | gate _ | address _ _ | script _ => cases raised

end Sys2Proof.Machine

namespace Sys2Proof

/-! ### The obligation -/

/-- A row that fits passes its check. -/
theorem checkRow_of_fits {sys : System} {row : Row} (h : Row.fits sys row = true) : ∃ u, sys.checkRow row = .ok u := by
  unfold Row.fits at h
  split at h
  case h_1 u passed => exact ⟨u, passed⟩
  case h_2 => cases h

/-- Settles O51: both checks pass, so a cycle without values has allowed errors only, and stops for one of them. -/
theorem wellFormedCycleHasMeaning : Obligations.WellFormedCycleHasMeaning := by
  intro s row wired fits
  obtain ⟨u, row_passes⟩ := checkRow_of_fits fits
  have meaning := Machine.means_evaluateCycle (System.checked wired) row_passes
  obtain ⟨e, failed, -⟩ | ⟨is, nets, t, -, -, completes⟩ | ⟨es, evaluated, fails⟩ := Machine.runCycle_cases row s
  · rw [Machine.check_of_wellFormed wired, row_passes] at failed
    rcases failed with failed | failed <;> cases failed
  · exact .inl ⟨_, completes⟩
  · rw [evaluated] at meaning
    obtain ⟨some_error, allowed⟩ := meaning
    rw [fails]
    obtain ⟨e, script, refused⟩ | ⟨no_script, failed⟩ := Machine.failCycle_cases es
    · obtain ⟨q, w, rfl⟩ := allowed _ script
      exact .inr (.inr ⟨q, w, refused⟩)
    · exact .inr (.inl ⟨_, Machine.raisedErrors_ne_nil some_error no_script, failed⟩)

end Sys2Proof
end
